-- ==== Sys2Proof/Word.lean ====
section
/-! DEFINITION. The word type of the machine and the two fields of an instruction word
(spec 00_scope.md R9, R10; 30_encoding.md R90). -/

namespace Sys2Proof

/-- An unsigned 32-bit value (00_scope.md R10): a memory word, a stack word, a scratch register. -/
abbrev Word := BitVec 32

/-- The opcode field, bits 7..0 of an instruction word (30_encoding.md R90). -/
abbrev Opcode := BitVec 8

/-- The operand field, bits 31..8 of an instruction word (30_encoding.md R90). -/
abbrev Operand := BitVec 24

end Sys2Proof
end

