-- ==== Sys2Proof/Syntax.lean ====
section
/-! DEFINITION. The instructions: one constructor for each of the 18 declared opcode names
(30_encoding.md R95), which are the rows of spec/opcode_table.json. -/

namespace Sys2Proof

/-- The 18 declared opcode names (30_encoding.md R95), in the order the spec lists them. -/
inductive OpName where
  | halt | push | pop | add | sub | mul | div | print | nop
  | load | store | mov | jmp | jz | jnz | call | ret | read
deriving DecidableEq, Repr

/-- All 18 names, the nine implemented ones first, as the table of 30_encoding.md R95 lists them. -/
def OpName.all : List OpName :=
  [.halt, .push, .pop, .add, .sub, .mul, .div, .print, .nop,
   .load, .store, .mov, .jmp, .jz, .jnz, .call, .ret, .read]

/-- The nine implemented names, in the order `classify` tests them (30_encoding.md R97). -/
def OpName.implemented : List OpName :=
  [.halt, .push, .pop, .add, .sub, .mul, .div, .print, .nop]

/-- A decoded instruction. Every one keeps the whole operand field of its word (30_encoding.md R90),
although only `push` reads it (30_encoding.md R94), so that decoding loses no bit
(30_encoding.md R93; DESIGN CHOICE, safe: log 9). -/
inductive Instr where
  | halt (operand : Operand)
  | push (operand : Operand)
  | pop (operand : Operand)
  | add (operand : Operand)
  | sub (operand : Operand)
  | mul (operand : Operand)
  | div (operand : Operand)
  | print (operand : Operand)
  | nop (operand : Operand)
  | load (operand : Operand)
  | store (operand : Operand)
  | mov (operand : Operand)
  | jmp (operand : Operand)
  | jz (operand : Operand)
  | jnz (operand : Operand)
  | call (operand : Operand)
  | ret (operand : Operand)
  | read (operand : Operand)
deriving DecidableEq, Repr

/-- The opcode name of an instruction. -/
def Instr.name : Instr → OpName
  | .halt _ => .halt | .push _ => .push | .pop _ => .pop | .add _ => .add | .sub _ => .sub
  | .mul _ => .mul | .div _ => .div | .print _ => .print | .nop _ => .nop | .load _ => .load
  | .store _ => .store | .mov _ => .mov | .jmp _ => .jmp | .jz _ => .jz | .jnz _ => .jnz
  | .call _ => .call | .ret _ => .ret | .read _ => .read

/-- The operand field of an instruction. -/
def Instr.operand : Instr → Operand
  | .halt x | .push x | .pop x | .add x | .sub x | .mul x | .div x | .print x | .nop x
  | .load x | .store x | .mov x | .jmp x | .jz x | .jnz x | .call x | .ret x | .read x => x

/-- The instruction of a given name and operand field. -/
def OpName.instr (n : OpName) (x : Operand) : Instr :=
  match n with
  | .halt => .halt x | .push => .push x | .pop => .pop x | .add => .add x | .sub => .sub x
  | .mul => .mul x | .div => .div x | .print => .print x | .nop => .nop x | .load => .load x
  | .store => .store x | .mov => .mov x | .jmp => .jmp x | .jz => .jz x | .jnz => .jnz x
  | .call => .call x | .ret => .ret x | .read => .read x

/-- One element of a program in the notation of 30_encoding.md R101. -/
inductive AsmItem where
  /-- A mnemonic, with the operand written after it, if any. -/
  | op (name : OpName) (operand : Option Nat)
  /-- `.word 0xHHHHHHHH`: a raw Word. -/
  | word (w : Word)
deriving DecidableEq, Repr

end Sys2Proof
end

