-- ==== Sys2Proof/Config.lean ====
section
/-! DEFINITION. The implementation parameters of 00_scope.md R6, and the one free value of the model,
MEM_INIT. -/

namespace Sys2Proof

/-- POP_FAULT_MODE (40_execution_loop.md R114): what the rest of an instruction does after a failed
pop. `abort` is the spec's default; `continues` is the spec's `Continue`. -/
inductive PopFaultMode where
  | abort
  | continues
deriving DecidableEq, Repr

/-- RESTART_POLICY (70_reset_and_hazards.md R212): what RUN resets beyond PC and FAULT. -/
inductive RestartPolicy where
  | fullReset
  | carryOver
deriving DecidableEq, Repr

/-- OPCODE_MAP (30_encoding.md R95): the numeric opcode of each of the 18 names. -/
structure OpcodeMap where
  halt : Opcode
  push : Opcode
  pop : Opcode
  add : Opcode
  sub : Opcode
  mul : Opcode
  div : Opcode
  print : Opcode
  nop : Opcode
  load : Opcode
  store : Opcode
  mov : Opcode
  jmp : Opcode
  jz : Opcode
  jnz : Opcode
  call : Opcode
  ret : Opcode
  read : Opcode
deriving DecidableEq, Repr

/-- `OPCODE_MAP(name)`. -/
def OpcodeMap.code (m : OpcodeMap) : OpName → Opcode
  | .halt => m.halt | .push => m.push | .pop => m.pop | .add => m.add | .sub => m.sub
  | .mul => m.mul | .div => m.div | .print => m.print | .nop => m.nop | .load => m.load
  | .store => m.store | .mov => m.mov | .jmp => m.jmp | .jz => m.jz | .jnz => m.jnz
  | .call => m.call | .ret => m.ret | .read => m.read

/-- The configuration of one core (00_scope.md R6), fixed for its lifetime (R8). MEM_INIT, the one
parameter that is a function, is the free value `Config.memInit` below. -/
structure Config where
  /-- `N`, the memory size in words. -/
  n : Nat
  /-- `STACK_SIZE`, the size of the stack region in words. -/
  stackSize : Nat
  /-- `DATA_START`, the first word of the data region and the end of the code region. -/
  dataStart : Nat
  /-- `OPCODE_MAP`. -/
  opcodeMap : OpcodeMap
  /-- `POP_FAULT_MODE`. -/
  popFaultMode : PopFaultMode
  /-- `RESTART_POLICY`. -/
  restartPolicy : RestartPolicy
deriving DecidableEq, Repr

/-- `STACK_START = N - STACK_SIZE` (00_scope.md R6; 90_conflicts.md C8). -/
def Config.stackStart (c : Config) : Nat := c.n - c.stackSize

/-- `CODE_SIZE = DATA_START` (00_scope.md R6; 90_conflicts.md C6). -/
def Config.codeSize (c : Config) : Nat := c.dataStart

/-- `MEM_INIT` (00_scope.md R6; 10_state.md R44; 92_eei_decisions.md D7): what memory word `i` holds
at construction. OPEN in the spec, "any function from word index to Word": a FREE VALUE, so it has no
body and no proof can know a value of it (log 2, safe). -/
opaque Config.memInit : Nat → Word

end Sys2Proof
end

