-- ==== Sys2Proof/WellFormed.lean ====
section
/-! DEFINITION. The checks the spec puts on what is given to the machine: configurations
(00_scope.md R7), opcode maps (30_encoding.md R95), calls of the codec (R92) and the notation (R101).
Every term of `Instr` is a well-formed instruction by its type alone: its operand field has 24 bits
and may hold any value (R94), so there is no check on it. -/

namespace Sys2Proof

/-- The size constraints of 00_scope.md R7. -/
def Config.sizesWf (c : Config) : Bool :=
  decide (1 ≤ c.n) && decide (c.n ≤ 2 ^ 32 - 1) &&
  decide (1 ≤ c.stackSize) && decide (c.stackSize ≤ c.n) &&
  decide (c.dataStart ≤ c.n - c.stackSize)

/-- All 18 values of an opcode map, in the order of the names. -/
def OpcodeMap.codes (m : OpcodeMap) : List Opcode := OpName.all.map m.code

/-- The constraints of 30_encoding.md R95: injective, and 99 belongs to no name. (That every value is
in 0 to 255 is said by the type.) -/
def OpcodeMap.wf (m : OpcodeMap) : Bool :=
  decide m.codes.Nodup && !(m.codes.contains 99)

/-- A configuration that CONSTRUCT accepts (00_scope.md R7), with a legal OPCODE_MAP
(30_encoding.md R95). -/
def Config.wf (c : Config) : Bool := c.sizesWf && c.opcodeMap.wf

/-- The precondition of the codec's `encode` on its opcode (30_encoding.md R92). -/
def opcodeInRange (opcode : Nat) : Bool := decide (opcode ≤ 255)

/-- An operand that the codec does not truncate (30_encoding.md R92; 93_implementation_defined.md I1). -/
def operandInRange (operand : Nat) : Bool := decide (operand ≤ 0xFFFFFF)

/-- An instruction in canonical form: an operand-free instruction has 0 in its operand field
(30_encoding.md R100). Other values are legal too (R94). -/
def Instr.canonical (i : Instr) : Bool :=
  decide (i.name = .push) || decide (i.operand = 0)

/-- The notation of 30_encoding.md R101: PUSH takes one operand in 0 to 16,777,215, every other
mnemonic takes none, and a raw Word is anything. -/
def AsmItem.wf : AsmItem → Bool
  | .op .push (some k) => operandInRange k
  | .op .push none => false
  | .op _ x => x.isNone
  | .word _ => true

end Sys2Proof
end

