-- ==== Sys2Proof/Decode.lean ====
section
/-! DEFINITION. The instruction codec (30_encoding.md): the fields of a word, classification,
decoding, and after it encoding. -/

namespace Sys2Proof

/-! ### Decoding -/

/-- `w & 0xFF`, bits 7..0 (30_encoding.md R91). -/
def opcodeField (w : Word) : Opcode := (w &&& 0xFF#32).setWidth 8

/-- `w >> 8`, bits 31..8 (30_encoding.md R91). -/
def operandField (w : Word) : Operand := (w >>> 8).setWidth 24

/-- `decode(w)` of 30_encoding.md R91: the split of a word into its two fields. -/
def decodeFields (w : Word) : Opcode × Operand := (opcodeField w, operandField w)

/-- The default OPCODE_MAP of 30_encoding.md R95 (92_eei_decisions.md D1; log 12). -/
def defaultOpcodeMap : OpcodeMap :=
  { halt := 0x00, push := 0x01, pop := 0x02, add := 0x03, sub := 0x04, mul := 0x05
    div := 0x06, print := 0x07, nop := 0x08, load := 0x09, store := 0x0A, mov := 0x0B
    jmp := 0x0C, jz := 0x0D, jnz := 0x0E, call := 0x0F, ret := 0x10, read := 0x11 }

/-- `classify(opcode)` of 30_encoding.md R97: the implemented name that the map gives this value, or
`none` for the class Unknown. -/
def classify (m : OpcodeMap) (v : Opcode) : Option OpName :=
  OpName.implemented.find? fun n => decide (m.code n = v)

/-- The declared name, implemented or reserved, that the map gives an opcode value. -/
def nameOf (m : OpcodeMap) (v : Opcode) : Option OpName :=
  OpName.all.find? fun n => decide (m.code n = v)

/-- What a word decodes to: an instruction of the opcode table, or a rejection by name of a value that
belongs to no declared name (30_encoding.md R95, "undefined"; 44_reserved.md R179). -/
inductive Decoded where
  | instr (i : Instr)
  | undefinedOpcode (v : Opcode)
deriving DecidableEq, Repr

/-- Decoding under an opcode map, total on all 2^32 words (30_encoding.md R91, R97, R98). -/
def decode (m : OpcodeMap) (w : Word) : Decoded :=
  match nameOf m (opcodeField w) with
  | some n => .instr (n.instr (operandField w))
  | none => .undefinedOpcode (opcodeField w)

/-- The instruction the decoder reads from an instruction whose bits are `w`, under the default map:
the bits from `nbits` up are 0, and a word is stored whole (20_memory.md R61, R66). -/
def decodeTableWord (nbits w : Nat) : Option Instr :=
  match decode defaultOpcodeMap (BitVec.ofNat 32 (w % 2 ^ nbits)) with
  | .instr i => some i
  | .undefinedOpcode _ => none

/-! ### Encoding -/

/-- `opcode | (operand << 8)` of 30_encoding.md R92, on fields already in range. -/
def packWord (opcode : Opcode) (operand : Operand) : Word :=
  opcode.setWidth 32 ||| (operand.setWidth 32 <<< 8)

/-- `encode(opcode, operand)` of 30_encoding.md R92: refused (`none`) for an opcode above 255, and an
operand above 0xFFFFFF cut to its low 24 bits. -/
def encodeFields (opcode operand : Nat) : Option Word :=
  if opcodeInRange opcode then
    some (BitVec.ofNat 32 (opcode ||| ((operand &&& 0xFFFFFF) <<< 8)))
  else none

/-- The word of an instruction under an opcode map (30_encoding.md R92, R100). -/
def encode (m : OpcodeMap) (i : Instr) : Word := packWord (m.code i.name) i.operand

/-- The canonical HALT word that a failed fetch returns (30_encoding.md R103). -/
def haltWord (m : OpcodeMap) : Word := encode m (.halt 0)

/-- The word an element of the notation stands for (30_encoding.md R101); `none` for an element that
the notation does not allow. -/
def assemble (m : OpcodeMap) (x : AsmItem) : Option Word :=
  if x.wf then
    match x with
    | .op n k => some (encode m (n.instr (BitVec.ofNat 24 (k.getD 0))))
    | .word w => some w
  else none

end Sys2Proof
end

