-- ==== Sys2Proof/Machine/Defaults.lean ====
section
/-! DEFINITION. The default configuration (00_scope.md R6) and the configuration that CONSTRUCT's
arguments give (70_reset_and_hazards.md R210). -/

namespace Sys2Proof.Machine

/-- The defaults of 00_scope.md R6: N = 1024, STACK_SIZE = 256, DATA_START = 512, the default
OPCODE_MAP, Abort and FullReset (log 12). -/
def defaultConfig : Config :=
  { n := 1024, stackSize := 256, dataStart := 512, opcodeMap := defaultOpcodeMap
    popFaultMode := .abort, restartPolicy := .fullReset }

/-- The configuration of `CONSTRUCT(cfg)` (70_reset_and_hazards.md R210): a size left out takes its
default. `model` gives OPCODE_MAP, POP_FAULT_MODE and RESTART_POLICY, which are "fixed for the model
as a whole". -/
def configOf (n stackSize dataStart : Option Nat) (model : Config) : Config :=
  { model with n := n.getD 1024, stackSize := stackSize.getD 256, dataStart := dataStart.getD 512 }

end Sys2Proof.Machine
end

