-- ==== Sys2Proof/Machine/State.lean ====
section
/-! DEFINITION. The state of the core (10_state.md) and of what stands between it and the host
(00_scope.md R13), as plain data; the reasons a step can stop; the state after CONSTRUCT. -/

namespace Sys2Proof.Machine

/-- The run state of 10_state.md R36. -/
inductive RunState where
  | idle
  | running
  | halted
deriving DecidableEq, Repr

/-- The five faults of 60_exceptions.md R180. Taking one is a next state (R182, R184): they are no
reason for the model to stop. -/
inductive FaultKind where
  | programBounds
  | stackOverflow
  | stackUnderflow
  | divideByZero
  | unknownOpcode
deriving DecidableEq, Repr

/-- The two kinds of event the core sends to the host (00_scope.md R13). -/
inductive Event where
  | out (v : Word)
  | diag (k : FaultKind)
deriving DecidableEq, Repr

/-- The commands the host issues to an existing core (00_scope.md R13). CONSTRUCT, which makes the
core, is `construct`. -/
inductive Command where
  | load (words : List Word)
  | run
  | dump
deriving DecidableEq, Repr

/-- One written word: its word index and its value. The unit of memory is the 32-bit word
(20_memory.md R61; log 1). -/
abbrev Cell := Nat × Word

/-- The words written since CONSTRUCT, addresses strictly rising. A word that is not listed holds
MEM_INIT (10_state.md R44; log 2). -/
abbrev Memory := List Cell

/-- Everything the spec gives one core, and three fields of the model's own (`events`, `runMark`,
`inbox`: log 5, log 6). -/
structure State where
  /-- The configuration, fixed for the life of the core (00_scope.md R6, R8; 10_state.md R40). -/
  cfg : Config
  /-- `PC`, a word index in [0, N] (10_state.md R31). -/
  pc : Nat
  /-- `SP`, an absolute word index in [STACK_START, N] (10_state.md R32). -/
  sp : Nat
  /-- Scratch register `A` (10_state.md R33). -/
  a : Word
  /-- Scratch register `B` (10_state.md R33). -/
  b : Word
  /-- Scratch register `C` (10_state.md R33). -/
  c : Word
  /-- The run state (10_state.md R36). The running flag is `runState = running`. -/
  runState : RunState
  /-- `FAULT`, the 3-bit code of the first fault of the run, 0 for none (10_state.md R39). -/
  fault : BitVec 3
  /-- Memory (20_memory.md R60), as the words written since CONSTRUCT. -/
  mem : Memory
  /-- Every OUT and DIAG event sent since CONSTRUCT, oldest first (00_scope.md R13;
  60_exceptions.md R197). -/
  events : List Event
  /-- How many events had been sent when the current run began. -/
  runMark : Nat
  /-- The commands the host will issue next, the first one first (00_scope.md R13, R14). -/
  inbox : List Command
deriving DecidableEq, Repr

/-- The reasons for which the machine stops with a fault of the MODEL. The five faults of the spec are
not among them: they are taken (`raise`) and the step answers a next state. -/
inductive Fault where
  /-- Raised by `memRead` and `memWrite` at an address at or above N, which does not exist
  (20_memory.md R64). No state that keeps 10_state.md R43 under a well-formed configuration raises
  it. Safe: the model stops where the spec gives no effect (log 8). -/
  | noSuchWord (address : Nat)
deriving DecidableEq, Repr

/-- The reasons for which the machine refuses. -/
inductive Refusal where
  /-- Raised by no arm of this model: every instruction has its meaning. Safe: the machine stops. -/
  | notModelled (mnemonic : String)
  /-- Raised by `construct` for a configuration that breaks 00_scope.md R7 or 30_encoding.md R95.
  Safe: such a configuration has no instance (R7). -/
  | illFormedConfig
  /-- Raised by `loadProgram` and `startRun` while Running (00_scope.md R14; 92_eei_decisions.md D17).
  Safe: no claim is made about such a host. -/
  | commandWhileRunning
deriving DecidableEq, Repr

/-- The outcome of an operation that answers an `α`. -/
abbrev Result (α : Type) := Host.Outcome α Fault Refusal

/-! ### Updates of one piece of state each -/

def State.withPc (s : State) (v : Nat) : State := { s with pc := v }
def State.withSp (s : State) (v : Nat) : State := { s with sp := v }
def State.withScratch (s : State) (x y z : Word) : State := { s with a := x, b := y, c := z }
def State.withRunState (s : State) (r : RunState) : State := { s with runState := r }
def State.withFault (s : State) (v : BitVec 3) : State := { s with fault := v }
def State.withMem (s : State) (m : Memory) : State := { s with mem := m }
def State.withRunMark (s : State) (k : Nat) : State := { s with runMark := k }
def State.withInbox (s : State) (cs : List Command) : State := { s with inbox := cs }

/-- One more event is sent, after all the others (43_control_output.md R164; 60_exceptions.md R197). -/
def State.send (s : State) (e : Event) : State := { s with events := s.events ++ [e] }

/-! ### After CONSTRUCT -/

/-- The state of a fresh core of a given configuration (10_state.md R44; 70_reset_and_hazards.md R210).
No word is listed, so every `M[i]` is MEM_INIT(i). -/
def State.init (cfg : Config) : State :=
  { cfg := cfg, pc := 0, sp := cfg.stackStart, a := 0, b := 0, c := 0, runState := .idle
    fault := 0, mem := [], events := [], runMark := 0, inbox := [] }

/-- The state after CONSTRUCT with the default configuration. The core has no other reset
(70_reset_and_hazards.md R211). How a program comes to run from here: log 4. -/
def State.reset : State := State.init defaultConfig

end Sys2Proof.Machine
end

