-- ==== Sys2Proof/Machine/Flags.lean ====
section
/-! DEFINITION. The running flag and the FAULT register. The core has no other flag: no condition
code, carry, overflow, zero or sign (10_state.md R38; 42_arithmetic.md R141). -/

namespace Sys2Proof.Machine

/-- The running flag: `running = (runState = Running)` (10_state.md R36). -/
def State.running (s : State) : Bool := decide (s.runState = .running)

/-- `running <- false`: the run state becomes Halted (10_state.md R36). -/
def clearRunning (s : State) : State := s.withRunState .halted

/-- The code of a fault in FAULT (60_exceptions.md R181). -/
def FaultKind.code : FaultKind → BitVec 3
  | .programBounds => 1
  | .stackOverflow => 2
  | .stackUnderflow => 3
  | .divideByZero => 4
  | .unknownOpcode => 5

/-- FAULT takes the code of a fault only while it holds 0, so it keeps the first fault of the run
(10_state.md R39; 60_exceptions.md R182). -/
def recordFault (k : FaultKind) (s : State) : State :=
  if s.fault = 0 then s.withFault k.code else s

end Sys2Proof.Machine
end

