-- ==== Sys2Proof/Machine/Ops.lean ====
section
/-! DEFINITION. The shared operations of the machine: memory, taking a fault, sending output, and the
stack engine. -/

namespace Sys2Proof.Machine

/-- Run a second operation on what the first answers. A stop of the first is a stop of both. -/
def andThen {α β : Type} (x : Result α) (f : α → Result β) : Result β :=
  match x with
  | .next v => f v
  | .fault r => .fault r
  | .refused r => .refused r

/-! ### Memory (20_memory.md) -/

/-- The written word at an address, `none` where nothing has been written since CONSTRUCT. -/
def Memory.read? : Memory → Nat → Option Word
  | [], _ => none
  | (k, v) :: rest, i => if k = i then some v else Memory.read? rest i

/-- A word is written, its address kept in rising order. -/
def Memory.write : Memory → Nat → Word → Memory
  | [], i, v => [(i, v)]
  | (k, w) :: rest, i, v =>
    if i < k then (i, v) :: (k, w) :: rest
    else if i = k then (i, v) :: rest
    else (k, w) :: Memory.write rest i v

/-- The canonical form: addresses strictly rising. Two memories in it that read alike at every address
are equal lists (log 2). -/
def Memory.wf : Memory → Bool
  | [] => true
  | [_] => true
  | x :: y :: rest => decide (x.1 < y.1) && Memory.wf (y :: rest)

/-- `M[i]`: the last word written there, or MEM_INIT(i) if nothing has written it
(20_memory.md R80; 10_state.md R44). -/
def State.wordAt (s : State) (i : Nat) : Word := (s.mem.read? i).getD (Config.memInit i)

/-- `MemRead(i, 1)` (00_scope.md R11). An address at or above N does not exist (20_memory.md R64). -/
def memRead (i : Nat) (s : State) : Result Word :=
  if i < s.cfg.n then .next (s.wordAt i) else .fault (.noSuchWord i)

/-- `MemWrite(i, 1, v)` (00_scope.md R11). -/
def memWrite (i : Nat) (v : Word) (s : State) : Result State :=
  if i < s.cfg.n then .next (s.withMem (s.mem.write i v)) else .fault (.noSuchWord i)

/-! ### Taking a fault -/

/-- `raise F` (60_exceptions.md R182): DIAG(F) is sent, FAULT keeps the first code, and the running
flag is cleared. That is all of fault entry (R184): PC, SP, memory, A, B and C stay. There is no
return from a fault (R186): only RUN (`startRun`) starts again. -/
def raise (k : FaultKind) (s : State) : State :=
  clearRunning (recordFault k (s.send (.diag k)))

/-- `emit OUT(v)` (43_control_output.md R163). -/
def emitOut (v : Word) (s : State) : State := s.send (.out v)

/-! ### The stack engine (20_memory.md R70, R71, R72) -/

/-- The status that push and pop return (20_memory.md R72). -/
inductive Status where
  | ok
  | fail
deriving DecidableEq, Repr

/-- `push(v)` (20_memory.md R70). -/
def push (v : Word) (s : State) : Result (Status × State) :=
  if s.sp < s.cfg.stackStart + s.cfg.stackSize then
    andThen (memWrite s.sp v s) fun s' => .next (.ok, s'.withSp (s.sp + 1))
  else .next (.fail, raise .stackOverflow s)

/-- `pop()` (20_memory.md R71), with the sentinel 0 when the stack is empty. -/
def pop (s : State) : Result (Word × Status × State) :=
  if s.cfg.stackStart < s.sp then
    andThen (memRead (s.sp - 1) s) fun v => .next (v, .ok, s.withSp (s.sp - 1))
  else .next (0, .fail, raise .stackUnderflow s)

end Sys2Proof.Machine
end

