-- ==== Sys2Proof/Machine/Commands.lean ====
section
/-! DEFINITION. The host's commands (00_scope.md R13, R14): CONSTRUCT, LOAD, RUN and DUMP. The whole
of RUN, with its loop, is `runProgram` in Machine/Loop.lean. -/

namespace Sys2Proof.Machine

/-- `CONSTRUCT(cfg)` (70_reset_and_hazards.md R210): a fresh core, or refused for an ill-formed
configuration (00_scope.md R7). -/
def construct (n stackSize dataStart : Option Nat) (model : Config) : Result State :=
  let cfg := configOf n stackSize dataStart model
  if cfg.wf then .next (State.init cfg) else .refused .illFormedConfig

/-- Words written one after another from an address up. -/
def writeFrom : Nat → List Word → State → Result State
  | _, [], s => .next s
  | i, w :: ws, s => andThen (memWrite i w s) (writeFrom (i + 1) ws)

/-- `LOAD(words)` (20_memory.md R75): the first CODE_SIZE words go to the code region, the rest are
dropped, and nothing else changes. Refused while Running (00_scope.md R14). -/
def loadProgram (words : List Word) (s : State) : Result State :=
  if s.running then .refused .commandWhileRunning
  else writeFrom 0 (words.take s.cfg.codeSize) s

/-- `reset_for_run()` (70_reset_and_hazards.md R212). The mark of where this run's events begin is the
model's own (log 6). -/
def resetForRun (s : State) : State :=
  let s1 := ((s.withPc 0).withFault 0).withRunMark s.events.length
  match s.cfg.restartPolicy with
  | .fullReset => (s1.withSp s.cfg.stackStart).withScratch 0 0 0
  | .carryOver => s1

/-- The start of `RUN` (40_execution_loop.md R117): refused while Running (00_scope.md R14). -/
def startRun (s : State) : Result State :=
  if s.running then .refused .commandWhileRunning
  else .next ((resetForRun s).withRunState .running)

/-- What DUMP returns (60_exceptions.md R195). -/
structure Snapshot where
  pc : Nat
  sp : Nat
  a : Word
  b : Word
  c : Word
  words : List Word
deriving DecidableEq, Repr

/-- `[ MemRead(i, 1) for i in lo .. lo + count - 1 ]`. -/
def readFrom (lo : Nat) : Nat → State → Result (List Word)
  | 0, _ => .next []
  | count + 1, s =>
    andThen (memRead lo s) fun w => andThen (readFrom (lo + 1) count s) fun ws => .next (w :: ws)

/-- `DUMP` (60_exceptions.md R195): a pure read, in any run state. -/
def dump (s : State) : Result Snapshot :=
  let lo := max s.cfg.stackStart (s.sp - 10)
  andThen (readFrom lo (s.sp - lo) s) fun ws => .next ⟨s.pc, s.sp, s.a, s.b, s.c, ws⟩

/-- One command of the host to a core. DUMP changes no state, and its reply is `dump s` (log 7). -/
def command : Command → State → Result State
  | .load words, s => loadProgram words s
  | .run, s => startRun s
  | .dump, s => .next s

end Sys2Proof.Machine
end

