-- ==== Sys2Proof/Machine/Operands.lean ====
section
/-! DEFINITION. The operand forms of the instruction set: the 24-bit immediate of PUSH
(30_encoding.md R94), one popped word, two popped words, and the pushed result. -/

namespace Sys2Proof.Machine

/-- `zext_32(operand)`: never sign-extended, scaled or shifted (30_encoding.md R94). -/
def immediate (x : Operand) : Word := x.setWidth 32

/-- `v <- POP` inside an instruction, then the rest of it (40_execution_loop.md R114). After a failed
pop, Abort ends the instruction and Continue goes on with the sentinel. -/
def withPop (s : State) (rest : Word → State → Result State) : Result State :=
  andThen (pop s) fun (v, status, s') =>
    if status = .fail ∧ s'.cfg.popFaultMode = .abort then .next s' else rest v s'

/-- `b <- POP; a <- POP`, then the rest: the top of the stack is `b`, the word below it `a`
(40_execution_loop.md R112). The rest gets `a` first. -/
def withTwoPops (s : State) (rest : Word → Word → State → Result State) : Result State :=
  withPop s fun b s1 => withPop s1 fun a s2 => rest a b s2

/-- A push as the last statement of an instruction: a failed one has nothing after it to skip
(40_execution_loop.md R114). -/
def pushResult (v : Word) (s : State) : Result State :=
  andThen (push v s) fun (_, s') => .next s'

end Sys2Proof.Machine
end

