-- ==== Sys2Proof/Machine/Arithmetic.lean ====
section
/-! DEFINITION. ADD, SUB, MUL and DIV (42_arithmetic.md). Arithmetic is unsigned and modulo 2^32
(R140), sets no flag and raises no overflow (R141). -/

namespace Sys2Proof.Machine

/-- `(a + b) mod 2^32` (42_arithmetic.md R140). -/
def addWords (a b : Word) : Word := BitVec.ofNat 32 (a.toNat + b.toNat)

/-- `(a - b) mod 2^32` (42_arithmetic.md R140). -/
def subWords (a b : Word) : Word := BitVec.ofNat 32 (2 ^ 32 + a.toNat - b.toNat)

/-- `(a * b) mod 2^32` (42_arithmetic.md R140). -/
def mulWords (a b : Word) : Word := BitVec.ofNat 32 (a.toNat * b.toNat)

/-- `a div b = floor(a / b)`, for b ≠ 0 (42_arithmetic.md R142). -/
def divWords (a b : Word) : Word := BitVec.ofNat 32 (a.toNat / b.toNat)

/-- ADD (42_arithmetic.md R145). -/
def execAdd (s : State) : Result State := withTwoPops s fun a b s' => pushResult (addWords a b) s'

/-- SUB (42_arithmetic.md R146). -/
def execSub (s : State) : Result State := withTwoPops s fun a b s' => pushResult (subWords a b) s'

/-- MUL (42_arithmetic.md R147). -/
def execMul (s : State) : Result State := withTwoPops s fun a b s' => pushResult (mulWords a b) s'

/-- DIV (42_arithmetic.md R148): both pops come before the test of the divisor. -/
def execDiv (s : State) : Result State :=
  withTwoPops s fun a b s' =>
    if b = 0 then .next (raise .divideByZero s') else pushResult (divWords a b) s'

end Sys2Proof.Machine
end

