-- ==== Sys2Proof/Machine/ControlOutput.lean ====
section
/-! DEFINITION. HALT, NOP and PRINT, and the line PRINT shows (43_control_output.md). -/

namespace Sys2Proof.Machine

/-- HALT (43_control_output.md R160): no fault, no event. -/
def execHalt (s : State) : Result State := .next (clearRunning s)

/-- NOP (43_control_output.md R161): no statement. -/
def execNop (s : State) : Result State := .next s

/-- PRINT (43_control_output.md R162). -/
def execPrint (s : State) : Result State := withPop s fun v s' => .next (emitOut v s')

/-- The decimal digits of a number, the leading one first, with at most `fuel` of them. -/
def decimalDigits : Nat → Nat → List Nat
  | 0, _ => []
  | fuel + 1, k => if k < 10 then [k] else decimalDigits fuel (k / 10) ++ [k % 10]

/-- The character of a decimal digit. -/
def digitChar (d : Nat) : Char := Char.ofNat (48 + d)

/-- The line of one OUT event (43_control_output.md R163): `Output:`, one space, the unsigned decimal
digits without leading zeros, one line feed. A Word has at most 10 digits. -/
def outputLine (v : Word) : List Char :=
  ['O', 'u', 't', 'p', 'u', 't', ':', ' '] ++
    (decimalDigits 10 v.toNat).map digitChar ++ [Char.ofNat 0x0A]

/-- The text the host shows for a list of events: the lines of the OUT events, in order
(43_control_output.md R164). DIAG events share nothing with it (60_exceptions.md R197). -/
def outputText : List Event → List Char
  | [] => []
  | .out v :: rest => outputLine v ++ outputText rest
  | .diag _ :: rest => outputText rest

end Sys2Proof.Machine
end

