-- ==== Sys2Proof/Machine/Reserved.lean ====
section
/-! DEFINITION. The nine reserved names (44_reserved.md R170 to R178), each of which raises
UnknownOpcode, and the shared effect of every opcode that is not implemented (R179). -/

namespace Sys2Proof.Machine

/-- `UNKNOWN()` (44_reserved.md R179). -/
def unknownOpcode (s : State) : Result State := .next (raise .unknownOpcode s)

/-- LOAD, reserved (44_reserved.md R170). Not the host's command LOAD, which is `loadProgram`. -/
def execLoad (s : State) : Result State := unknownOpcode s

/-- STORE, reserved (44_reserved.md R171). -/
def execStore (s : State) : Result State := unknownOpcode s

/-- MOV, reserved (44_reserved.md R172). -/
def execMov (s : State) : Result State := unknownOpcode s

/-- JMP, reserved (44_reserved.md R173). -/
def execJmp (s : State) : Result State := unknownOpcode s

/-- JZ, reserved (44_reserved.md R174). -/
def execJz (s : State) : Result State := unknownOpcode s

/-- JNZ, reserved (44_reserved.md R175). -/
def execJnz (s : State) : Result State := unknownOpcode s

/-- CALL, reserved (44_reserved.md R176). -/
def execCall (s : State) : Result State := unknownOpcode s

/-- RET, reserved (44_reserved.md R177). -/
def execRet (s : State) : Result State := unknownOpcode s

/-- READ, reserved (44_reserved.md R178). -/
def execRead (s : State) : Result State := unknownOpcode s

end Sys2Proof.Machine
end

