-- ==== Sys2Proof/Machine/StackTransfer.lean ====
section
/-! DEFINITION. PUSH and POP (41_stack_transfer.md). -/

namespace Sys2Proof.Machine

/-- PUSH (41_stack_transfer.md R130). -/
def execPush (x : Operand) (s : State) : Result State := pushResult (immediate x) s

/-- POP (41_stack_transfer.md R131): the popped word is discarded, and stays in memory. -/
def execPop (s : State) : Result State := withPop s fun _ s' => .next s'

end Sys2Proof.Machine
end

