-- ==== Sys2Proof/Machine/Dispatch.lean ====
section
/-! DEFINITION. Dispatch: each instruction to its meaning (40_execution_loop.md R111). Only PUSH reads
its operand field (30_encoding.md R94). -/

namespace Sys2Proof.Machine

def exec (i : Instr) (s : State) : Host.Outcome State Fault Refusal :=
  match i with
  | .halt _ => Sys2Proof.Machine.execHalt s
  | .push x => Sys2Proof.Machine.execPush x s
  | .pop _ => Sys2Proof.Machine.execPop s
  | .add _ => Sys2Proof.Machine.execAdd s
  | .sub _ => Sys2Proof.Machine.execSub s
  | .mul _ => Sys2Proof.Machine.execMul s
  | .div _ => Sys2Proof.Machine.execDiv s
  | .print _ => Sys2Proof.Machine.execPrint s
  | .nop _ => Sys2Proof.Machine.execNop s
  | .load _ => Sys2Proof.Machine.execLoad s
  | .store _ => Sys2Proof.Machine.execStore s
  | .mov _ => Sys2Proof.Machine.execMov s
  | .jmp _ => Sys2Proof.Machine.execJmp s
  | .jz _ => Sys2Proof.Machine.execJz s
  | .jnz _ => Sys2Proof.Machine.execJnz s
  | .call _ => Sys2Proof.Machine.execCall s
  | .ret _ => Sys2Proof.Machine.execRet s
  | .read _ => Sys2Proof.Machine.execRead s

end Sys2Proof.Machine
end

