-- ==== Sys2Proof/Machine/Fetch.lean ====
section
/-! DEFINITION. Fetching an instruction's word (40_execution_loop.md R110). -/

namespace Sys2Proof.Machine

/-- `fetch()`: the word at PC, and PC one further; or, past the end of memory, ProgramBoundsFault and
the HALT word, with PC left as it is. -/
def fetch (s : State) : Result (Word × State) :=
  if s.pc < s.cfg.n then
    andThen (memRead s.pc s) fun w => .next (w, s.withPc (s.pc + 1))
  else .next (haltWord s.cfg.opcodeMap, raise .programBounds s)

end Sys2Proof.Machine
end

