-- ==== Sys2Proof/Machine/Execute.lean ====
section
/-! DEFINITION. One iteration of the loop (40_execution_loop.md R111, R115), and what the core does
between runs. -/

namespace Sys2Proof.Machine

/-- `execute(w)` (40_execution_loop.md R111): decode under the core's OPCODE_MAP, then the meaning. An
opcode of no declared name raises UnknownOpcode (44_reserved.md R179). -/
def execute (w : Word) (s : State) : Result State :=
  match decode s.cfg.opcodeMap w with
  | .instr i => exec i s
  | .undefinedOpcode _ => unknownOpcode s

/-- One step of a run: a fetch followed by an execute (40_execution_loop.md R115). -/
def runStep (s : State) : Result State := andThen (fetch s) fun (w, s') => execute w s'

/-- One step in Idle or Halted: the host's next command is taken, and without one the core does
nothing (60_exceptions.md R196; log 5). -/
def waitStep (s : State) : Result State :=
  match s.inbox with
  | [] => .next s
  | c :: rest => command c (s.withInbox rest)

end Sys2Proof.Machine
end

