-- ==== Sys2Proof/Machine/Step.lean ====
section
/-! DEFINITION. The step of the machine, and the host's way to place one instruction. -/

namespace Sys2Proof.Machine

/-- While Running, one iteration of the loop (40_execution_loop.md R115, R116); in Idle and Halted,
the next command of the host (60_exceptions.md R196). -/
def step (s : State) : Host.Outcome State Fault Refusal :=
  if s.running then runStep s else waitStep s

/-- `s` with an instruction's word stored where the next step fetches, and the core Running, as a LOAD
and a RUN would leave it (log 4). Where PC is past the last word, PC becomes the entry point 0
(20_memory.md R64). -/
def State.withFetchWord (s : State) (nbits w : Nat) : State :=
  let s1 := if s.pc < s.cfg.n then s else s.withPc 0
  (s1.withMem (s1.mem.write s1.pc (BitVec.ofNat 32 (w % 2 ^ nbits)))).withRunState .running

end Sys2Proof.Machine
end

