-- ==== Sys2Proof/Machine/Loop.lean ====
section
/-! DEFINITION. The loop and the whole command RUN (40_execution_loop.md R116, R117), and what a run
gives the host (R121). -/

namespace Sys2Proof.Machine

/-- `loop()` (40_execution_loop.md R116), at most `fuel` steps of it: the running flag is tested before
each fetch. -/
def loop : Nat → State → Result State
  | 0, s => .next s
  | fuel + 1, s => if s.running then andThen (step s) (loop fuel) else .next s

/-- `RUN() -> fault code` (40_execution_loop.md R117). N + 1 steps are enough for every run (R120). -/
def runProgram (s : State) : Result (State × BitVec 3) :=
  andThen (startRun s) fun s1 =>
    andThen (loop (s1.cfg.n + 1) s1) fun t => .next (t, t.fault)

/-- The events of the current or last run, in order (40_execution_loop.md R121). -/
def State.runEvents (s : State) : List Event := s.events.drop s.runMark

/-- The OUT values among some events, in order (40_execution_loop.md R121). -/
def outValues : List Event → List Word
  | [] => []
  | .out v :: rest => v :: outValues rest
  | .diag _ :: rest => outValues rest

/-- The DIAG kinds among some events, in order (40_execution_loop.md R121). -/
def diagKinds : List Event → List FaultKind
  | [] => []
  | .out _ :: rest => diagKinds rest
  | .diag k :: rest => k :: diagKinds rest

end Sys2Proof.Machine
end

