-- ==== Sys2Proof/Safety.lean ====
section
/-! DEFINITION. The invariant of the core (10_state.md R43) in the terms the statements use. -/

namespace Sys2Proof.Machine

/-- The code of the first fault among some events, 0 if there is none: what FAULT should hold
(10_state.md R39). -/
def firstFaultCode (es : List Event) : BitVec 3 :=
  match diagKinds es with
  | [] => 0
  | k :: _ => k.code

/-- `0 <= PC <= N` (10_state.md R43). -/
abbrev PcInRange (s : State) : Prop := s.pc ≤ s.cfg.n

/-- `STACK_START <= SP <= N` (10_state.md R43). -/
abbrev SpInRange (s : State) : Prop := s.cfg.stackStart ≤ s.sp ∧ s.sp ≤ s.cfg.n

/-- Memory is in canonical form and lists only words that exist (20_memory.md R60). -/
abbrev MemInRange (s : State) : Prop := s.mem.wf = true ∧ ∀ cell ∈ s.mem, cell.1 < s.cfg.n

/-- FAULT is the first DIAG event of the run, 0 exactly when there is none (10_state.md R39, R43). -/
abbrev FaultIsFirstDiag (s : State) : Prop :=
  s.runMark ≤ s.events.length ∧ s.fault = firstFaultCode s.runEvents

/-- While the core is Running, no fault of this run has been raised: `raise` clears the flag
(60_exceptions.md R182). -/
abbrev RunningWithoutFault (s : State) : Prop := s.runState = .running → s.fault = 0

/-- The state after the faults `ks` have been raised one after another (60_exceptions.md R182), written
out: one DIAG event each, in order; FAULT keeps what it held, or else takes the first code; the
running flag is clear. -/
def State.afterFaults (s : State) (ks : List FaultKind) : State :=
  { s with
    events := s.events ++ ks.map Event.diag
    fault := if s.fault = 0 then firstFaultCode (ks.map Event.diag) else s.fault
    runState := .halted }

/-- What no instruction changes: the configuration, PC, A, B, C, the model's `runMark` and `inbox`, and
the events already sent (00_scope.md R8; 40_execution_loop.md R113; 10_state.md R33;
43_control_output.md R164). -/
abbrev KeepsTheRest (s t : State) : Prop :=
  t.cfg = s.cfg ∧ t.pc = s.pc ∧ t.a = s.a ∧ t.b = s.b ∧ t.c = s.c ∧ t.runMark = s.runMark ∧
    t.inbox = s.inbox ∧ t.events.take s.events.length = s.events

/-- What happens to the running flag and FAULT when no fault is taken, and when one is
(10_state.md R38, R39). -/
abbrev FlagsKeptOrFaulted (s t : State) : Prop :=
  (t.runState = s.runState ∧ t.fault = s.fault) ∨
    (t.runState = .halted ∧ (s.fault ≠ 0 → t.fault = s.fault) ∧ t.fault ≠ 0)

/-- `s` with another OPCODE_MAP. -/
def State.withOpcodeMap (s : State) (m : OpcodeMap) : State := { s with cfg := { s.cfg with opcodeMap := m } }

/-- `s` with another POP_FAULT_MODE. -/
def State.withPopFaultMode (s : State) (p : PopFaultMode) : State :=
  { s with cfg := { s.cfg with popFaultMode := p } }

/-- An outcome with a change made to its next state, if it has one. -/
def mapNext (f : State → State) : Result State → Result State
  | .next s => .next (f s)
  | .fault r => .fault r
  | .refused r => .refused r

/-- The invariant: a well-formed configuration (00_scope.md R7) and the clauses of 10_state.md R43. -/
abbrev State.Inv (s : State) : Prop :=
  s.cfg.wf = true ∧ PcInRange s ∧ SpInRange s ∧ MemInRange s ∧ FaultIsFirstDiag s ∧
    RunningWithoutFault s

end Sys2Proof.Machine
end

