-- ==== Sys2Proof/Certificates/Slice0/Obligations.lean ====
section
/-! DEFINITION. The statements for the provers. `s.wordAt i` is `M[i]`; `s.afterFaults ks` (Safety.lean)
is `s` after the faults `ks`, written out. Where a statement rests on one of the spec's own decisions
(92_eei_decisions.md) or derivations, its docstring names it. -/

open Sys2Proof Sys2Proof.Machine

/-! ### Encoding (30_encoding.md) -/

/-- R91: every word splits into `word & 0xFF` and `word >> 8`. -/
def Obligations.DecodeSplitsEveryWordIntoItsTwoFields : Prop :=
  ∀ w : Word, (decodeFields w).1.toNat = w.toNat % 2 ^ 8 ∧ (decodeFields w).2.toNat = w.toNat / 2 ^ 8

/-- Under every opcode map, what a word decodes to has the two fields of the word: an instruction whose
name has the opcode and which holds the operand, or a rejection that names the opcode. -/
def Obligations.DecodeKeepsTheFieldsOfTheWord : Prop :=
  ∀ (m : OpcodeMap) (w : Word),
    match decode m w with
    | .instr i => m.code i.name = (decodeFields w).1 ∧ i.operand = (decodeFields w).2
    | .undefinedOpcode v => v = (decodeFields w).1 ∧ ∀ n : OpName, m.code n ≠ v

/-- The codec's `encode` packs both fields, cuts the operand to 24 bits, and refuses an opcode above
255. The refusal is the spec's decision D19 (30_encoding.md section 1). -/
def Obligations.EncodePacksMasksAndRefuses : Prop :=
  ∀ opcode operand : Nat,
    (opcode ≤ 255 → ∃ w, encodeFields opcode operand = some w ∧
      w.toNat = opcode + 2 ^ 8 * (operand % 2 ^ 24)) ∧
    (255 < opcode → encodeFields opcode operand = none)

/-- The codec round-trips in both directions (30_encoding.md section 1; the second direction is the
spec's derivation). -/
def Obligations.CodecRoundTripsInBothDirections : Prop :=
  (∀ opcode operand : Nat, opcode ≤ 255 → operand < 2 ^ 24 →
    ∃ w, encodeFields opcode operand = some w ∧
      decodeFields w = (BitVec.ofNat 8 opcode, BitVec.ofNat 24 operand)) ∧
  ∀ w : Word, encodeFields (decodeFields w).1.toNat (decodeFields w).2.toNat = some w

/-- Under every legal opcode map, decoding the word of an instruction gives the instruction back, for
all 18 names and every operand field. -/
def Obligations.DecodeOfEncodeIsTheInstruction : Prop :=
  ∀ m : OpcodeMap, m.wf = true → ∀ i : Instr, decode m (encode m i) = .instr i

/-- Under every opcode map, the word of the instruction that a word decodes to is that word. -/
def Obligations.EncodeOfDecodeIsTheWord : Prop :=
  ∀ (m : OpcodeMap) (w : Word) (i : Instr), decode m w = .instr i → encode m i = w

/-- R97: the ten classes of an opcode value. -/
def Obligations.ClassifyGivesOneOfTenClasses : Prop :=
  ∀ m : OpcodeMap, m.wf = true → ∀ v : Opcode,
    (∀ n : OpName, classify m v = some n ↔
      n ∈ [OpName.halt, .push, .pop, .add, .sub, .mul, .div, .print, .nop] ∧ m.code n = v) ∧
    (classify m v = none ↔
      ∀ n ∈ [OpName.halt, .push, .pop, .add, .sub, .mul, .div, .print, .nop], m.code n ≠ v)

/-- Words written out from the spec's encodings decode to what they stand for, under the default map
(the spec's decision D1). -/
def Obligations.WrittenOutWordsDecode : Prop :=
  decode defaultOpcodeMap 0x00000A01 = .instr (.push 10) ∧
  decode defaultOpcodeMap 0xFFFFFF01 = .instr (.push 0xFFFFFF) ∧
  decode defaultOpcodeMap 0x12345602 = .instr (.pop 0x123456) ∧
  decode defaultOpcodeMap 0x00000004 = .instr (.sub 0) ∧
  decode defaultOpcodeMap 0xABCDEF00 = .instr (.halt 0xABCDEF) ∧
  decode defaultOpcodeMap 0x0000010A = .instr (.store 1) ∧
  decode defaultOpcodeMap 0x00000063 = .undefinedOpcode 99

/-- The notation of 30_encoding.md section 5 (the spec's decision D13) assembles to a word that decodes
to what was written, and does not assemble an operand that is out of range, missing or not wanted. -/
def Obligations.NotationAssemblesToWhatItSays : Prop :=
  ∀ m : OpcodeMap, m.wf = true →
    (∀ k : Nat, k ≤ 16777215 → ∃ w, assemble m (.op .push (some k)) = some w ∧
      decode m w = .instr (.push (BitVec.ofNat 24 k))) ∧
    (∀ k : Nat, 16777215 < k → assemble m (.op .push (some k)) = none) ∧
    assemble m (.op .push none) = none ∧
    (∀ n : OpName, n ≠ .push →
      (∃ w, assemble m (.op n none) = some w ∧ decode m w = .instr (n.instr 0)) ∧
      ∀ k : Nat, assemble m (.op n (some k)) = none) ∧
    ∀ w : Word, assemble m (.word w) = some w

/-! ### Instructions -/

/-- HALT clears the running flag and does nothing else; NOP does nothing
(43_control_output.md section 1). -/
def Obligations.HaltStopsAndNopDoesNothing : Prop :=
  ∀ (x : Operand) (s : State),
    exec (.halt x) s = .next { s with runState := .halted } ∧ exec (.nop x) s = .next s

/-- PUSH writes its zero-extended operand at SP and moves SP up by 1; on a full stack it takes
StackOverflow, with no memory written and SP as it was (41_stack_transfer.md; FAULT is the spec's
decision D9). -/
def Obligations.PushWritesTheImmediateOrOverflows : Prop :=
  ∀ (x : Operand) (s : State), s.cfg.sizesWf = true → s.sp ≤ s.cfg.n →
    (s.sp < s.cfg.n → exec (.push x) s = .next
      { s with sp := s.sp + 1, mem := s.mem.write s.sp (BitVec.ofNat 32 x.toNat) }) ∧
    (s.sp = s.cfg.n → exec (.push x) s = .next (s.afterFaults [.stackOverflow]))

/-- POP moves SP down by 1 and leaves memory as it is; on an empty stack it takes StackUnderflow under
both values of POP_FAULT_MODE (41_stack_transfer.md; FAULT is the spec's decision D9). -/
def Obligations.PopDropsTheTopOrUnderflows : Prop :=
  ∀ (x : Operand) (s : State), s.cfg.sizesWf = true → SpInRange s →
    (s.cfg.stackStart < s.sp → exec (.pop x) s = .next { s with sp := s.sp - 1 }) ∧
    (s.sp = s.cfg.stackStart → exec (.pop x) s = .next (s.afterFaults [.stackUnderflow]))

/-- PRINT pops the top and sends it; on an empty stack it takes StackUnderflow, and under Continue it
then sends the sentinel 0 (43_control_output.md section 1; POP_FAULT_MODE is the spec's decision D8,
FAULT its decision D9). -/
def Obligations.PrintSendsTheTopOrUnderflows : Prop :=
  ∀ (x : Operand) (s : State), s.cfg.sizesWf = true → SpInRange s →
    (s.cfg.stackStart < s.sp → exec (.print x) s = .next
      { s with sp := s.sp - 1, events := s.events ++ [.out (s.wordAt (s.sp - 1))] }) ∧
    (s.sp = s.cfg.stackStart → s.cfg.popFaultMode = .abort →
      exec (.print x) s = .next (s.afterFaults [.stackUnderflow])) ∧
    (s.sp = s.cfg.stackStart → s.cfg.popFaultMode = .continues →
      exec (.print x) s = .next
        { s.afterFaults [.stackUnderflow] with
          events := s.events ++ [.diag .stackUnderflow, .out 0] })

/-- With two words on the stack, ADD, SUB and MUL put `a op b` in their place, `b` being the top and
`a` the word below it. No flag, FAULT, event or other state changes (42_arithmetic.md; the reduction
modulo 2^32 is the spec's decision D10). -/
def Obligations.AddSubMulReplaceTheTopTwoWords : Prop :=
  ∀ (x : Operand) (s : State), s.cfg.sizesWf = true →
    s.cfg.stackStart + 2 ≤ s.sp → s.sp ≤ s.cfg.n →
    let a := (s.wordAt (s.sp - 2)).toNat
    let b := (s.wordAt (s.sp - 1)).toNat
    let result (r : Nat) : State :=
      { s with sp := s.sp - 1, mem := s.mem.write (s.sp - 2) (BitVec.ofNat 32 r) }
    exec (.add x) s = .next (result ((a + b) % 2 ^ 32)) ∧
    exec (.sub x) s = .next (result (if b ≤ a then a - b else 2 ^ 32 - (b - a))) ∧
    exec (.mul x) s = .next (result ((a * b) % 2 ^ 32))

/-- With two words on the stack, DIV puts `floor(a / b)` in their place; where `b` is 0 both pops stay
made, nothing is pushed and DivideByZero is taken (42_arithmetic.md; unsigned division is the spec's
decision D10, FAULT its decision D9). -/
def Obligations.DivReplacesTheTopTwoWordsOrFaults : Prop :=
  ∀ (x : Operand) (s : State), s.cfg.sizesWf = true →
    s.cfg.stackStart + 2 ≤ s.sp → s.sp ≤ s.cfg.n →
    let a := (s.wordAt (s.sp - 2)).toNat
    let b := (s.wordAt (s.sp - 1)).toNat
    (b ≠ 0 → exec (.div x) s = .next
      { s with sp := s.sp - 1, mem := s.mem.write (s.sp - 2) (BitVec.ofNat 32 (a / b)) }) ∧
    (b = 0 → exec (.div x) s = .next ({ s with sp := s.sp - 2 }.afterFaults [.divideByZero]))

/-- R141: with two words on the stack, ADD, SUB and MUL send nothing and leave FAULT and the running
flag, whatever the words are; DIV sends nothing or DivideByZero alone. -/
def Obligations.ArithmeticFaultsOnlyByDivideByZero : Prop :=
  ∀ (x : Operand) (s : State), s.cfg.sizesWf = true →
    s.cfg.stackStart + 2 ≤ s.sp → s.sp ≤ s.cfg.n →
    (∀ i ∈ [Instr.add x, .sub x, .mul x], ∃ t, exec i s = .next t ∧
      t.events = s.events ∧ t.fault = s.fault ∧ t.runState = s.runState) ∧
    ∃ t, exec (.div x) s = .next t ∧
      ((t.events = s.events ∧ t.fault = s.fault ∧ t.runState = s.runState) ∨
        t.events = s.events ++ [.diag .divideByZero])

/-- Under Abort, an arithmetic instruction that finds fewer than two words stops at the first failed
pop: one StackUnderflow, the pop before it stays made, no memory written (42_arithmetic.md;
POP_FAULT_MODE is the spec's decision D8). -/
def Obligations.ShortStackArithmeticUnderAbort : Prop :=
  ∀ (x : Operand) (s : State), s.cfg.sizesWf = true → s.cfg.popFaultMode = .abort →
    ∀ i ∈ [Instr.add x, .sub x, .mul x, .div x],
      (s.sp = s.cfg.stackStart + 1 →
        exec i s = .next ({ s with sp := s.cfg.stackStart }.afterFaults [.stackUnderflow])) ∧
      (s.sp = s.cfg.stackStart → exec i s = .next (s.afterFaults [.stackUnderflow]))

/-- Under Continue, an arithmetic instruction that finds fewer than two words goes on with the sentinel
0: what it pushes, and every fault it takes, in order (42_arithmetic.md; POP_FAULT_MODE is the spec's
decision D8). -/
def Obligations.ShortStackArithmeticUnderContinue : Prop :=
  ∀ (x : Operand) (s : State), s.cfg.sizesWf = true → s.cfg.popFaultMode = .continues →
    let low := s.cfg.stackStart
    let only := (s.wordAt low).toNat
    let pushed (r : Nat) : State :=
      { s with sp := low + 1, mem := s.mem.write low (BitVec.ofNat 32 r) }
    (s.sp = low + 1 →
      exec (.add x) s = .next ((pushed only).afterFaults [.stackUnderflow]) ∧
      exec (.sub x) s = .next ((pushed ((2 ^ 32 - only) % 2 ^ 32)).afterFaults [.stackUnderflow]) ∧
      exec (.mul x) s = .next ((pushed 0).afterFaults [.stackUnderflow]) ∧
      (only ≠ 0 → exec (.div x) s = .next ((pushed 0).afterFaults [.stackUnderflow])) ∧
      (only = 0 → exec (.div x) s =
        .next ({ s with sp := low }.afterFaults [.stackUnderflow, .divideByZero]))) ∧
    (s.sp = low →
      (∀ i ∈ [Instr.add x, .sub x, .mul x],
        exec i s = .next ((pushed 0).afterFaults [.stackUnderflow, .stackUnderflow])) ∧
      exec (.div x) s =
        .next (s.afterFaults [.stackUnderflow, .stackUnderflow, .divideByZero]))

/-- Each of the nine reserved instructions takes UnknownOpcode and has no other effect, whatever its
operand field holds (44_reserved.md; FAULT is the spec's decision D9). -/
def Obligations.ReservedInstructionsTakeUnknownOpcode : Prop :=
  ∀ (x : Operand) (s : State),
    ∀ i ∈ [Instr.load x, .store x, .mov x, .jmp x, .jz x, .jnz x, .call x, .ret x, .read x],
      exec i s = .next (s.afterFaults [.unknownOpcode])

/-- No instruction but PUSH reads its operand field (30_encoding.md section 2, the spec's
derivation). -/
def Obligations.OnlyPushReadsItsOperandField : Prop :=
  ∀ (n : OpName) (x y : Operand) (s : State), n ≠ .push → exec (n.instr x) s = exec (n.instr y) s

/-! ### Frames -/

/-- HALT, POP, PRINT, NOP and the nine reserved instructions store nothing: every word of memory reads
as before. SP moves down by 1 for a POP or PRINT of a non-empty stack, and else stays. The running flag
and FAULT change only by a fault, or the flag alone by HALT. Everything else stays. -/
def Obligations.NonStoringInstructionsFrame : Prop :=
  ∀ (x : Operand) (s t : State),
    ∀ i ∈ [Instr.halt x, .pop x, .print x, .nop x, .load x, .store x, .mov x, .jmp x, .jz x, .jnz x,
      .call x, .ret x, .read x],
    exec i s = .next t →
      KeepsTheRest s t ∧
      (FlagsKeptOrFaulted s t ∨ (i = .halt x ∧ t.runState = .halted ∧ t.fault = s.fault)) ∧
      (t.sp = s.sp ∨ ((i = .pop x ∨ i = .print x) ∧ s.cfg.stackStart < s.sp ∧ t.sp = s.sp - 1)) ∧
      ∀ address, t.wordAt address = s.wordAt address

/-- PUSH stores at SP alone, moves SP up by 1 or else takes a fault and touches no memory, and leaves
everything else. -/
def Obligations.PushFrame : Prop :=
  ∀ (x : Operand) (s t : State), exec (.push x) s = .next t →
    KeepsTheRest s t ∧ FlagsKeptOrFaulted s t ∧
    (t.sp = s.sp + 1 ∨ (t.sp = s.sp ∧ t.runState = .halted ∧
      ∀ address, t.wordAt address = s.wordAt address)) ∧
    ∀ address, address ≠ s.sp → t.wordAt address = s.wordAt address

/-- ADD, SUB, MUL and DIV store at the SP that their two pops leave, and nowhere else; SP ends there or
1 above it; the flag and FAULT change only by a fault; everything else stays. -/
def Obligations.ArithmeticFrame : Prop :=
  ∀ (x : Operand) (s t : State), ∀ i ∈ [Instr.add x, .sub x, .mul x, .div x],
    exec i s = .next t →
      KeepsTheRest s t ∧ FlagsKeptOrFaulted s t ∧
      ∀ (b a : Word) (st1 st2 : Status) (s1 s2 : State),
        pop s = .next (b, st1, s1) → pop s1 = .next (a, st2, s2) →
          (t.sp = s2.sp ∨ t.sp = s2.sp + 1) ∧
          ∀ address, address ≠ s2.sp → t.wordAt address = s.wordAt address

/-- R167: no instruction writes PC, and the only control over a run is to end it, by HALT or by a
fault. -/
def Obligations.InstructionsNeverWritePc : Prop :=
  ∀ (i : Instr) (s t : State), exec i s = .next t →
    t.pc = s.pc ∧
    (t.runState = s.runState ∨
      (t.runState = .halted ∧
        ((∃ x, i = .halt x) ∨ ∃ k, Event.diag k ∈ t.events.drop s.events.length)))

/-- No instruction reads or writes A, B or C: with other values in them it does the same and leaves
those values (10_state.md section 1). -/
def Obligations.InstructionsIgnoreTheScratchRegisters : Prop :=
  ∀ (i : Instr) (s : State) (x y z : Word),
    exec i (s.withScratch x y z) = mapNext (fun t => t.withScratch x y z) (exec i s)

/-- R8: no instruction, command or step changes the configuration. -/
def Obligations.ConfigurationNeverChanges : Prop :=
  (∀ (i : Instr) (s t : State), exec i s = .next t → t.cfg = s.cfg) ∧
  (∀ (c : Command) (s t : State), command c s = .next t → t.cfg = s.cfg) ∧
  ∀ s t : State, step s = .next t → t.cfg = s.cfg

/-- R164: PRINT alone sends OUT events, sends the top of the stack after all events sent before, never
stalls in doing so, and no step withdraws an event. -/
def Obligations.OutputIsSentInOrderByPrintAlone : Prop :=
  (∀ (i : Instr) (s t : State), exec i s = .next t →
    t.events.take s.events.length = s.events ∧
    (outValues (t.events.drop s.events.length) ≠ [] → ∃ x, i = .print x)) ∧
  (∀ (x : Operand) (s : State), s.cfg.stackStart < s.sp → s.sp ≤ s.cfg.n →
    ∃ t, exec (.print x) s = .next t ∧ t.runState = s.runState ∧
      t.events = s.events ++ [.out (s.wordAt (s.sp - 1))]) ∧
  ∀ s t : State, step s = .next t → t.events.take s.events.length = s.events

/-! ### The step and the loop (40_execution_loop.md) -/

/-- While Running, a step at a word that decodes to an instruction is that instruction's meaning with
PC one further, and at an undefined opcode it takes UnknownOpcode with PC one further
(40_execution_loop.md sections 1 to 3; the step's grain is the spec's decision D15, FAULT its D9). -/
def Obligations.StepRunsTheDecodedInstruction : Prop :=
  ∀ s : State, s.runState = .running → s.pc < s.cfg.n →
    (∀ i : Instr, decode s.cfg.opcodeMap (s.wordAt s.pc) = .instr i →
      step s = exec i { s with pc := s.pc + 1 }) ∧
    (∀ v : Opcode, decode s.cfg.opcodeMap (s.wordAt s.pc) = .undefinedOpcode v →
      step s = .next ({ s with pc := s.pc + 1 }.afterFaults [.unknownOpcode]))

/-- Executing a word runs the rule of its class: of an implemented class the instruction with the
word's operand, of the class Unknown the fault UnknownOpcode and nothing else
(40_execution_loop.md section 2, 44_reserved.md; FAULT is the spec's decision D9). -/
def Obligations.ExecuteRunsTheRuleOfTheClass : Prop :=
  ∀ (w : Word) (s : State),
    (∀ n : OpName, classify s.cfg.opcodeMap (opcodeField w) = some n →
      execute w s = exec (n.instr (operandField w)) s) ∧
    (classify s.cfg.opcodeMap (opcodeField w) = none →
      execute w s = .next (s.afterFaults [.unknownOpcode]))

/-- A step with PC past the last word takes ProgramBoundsFault and changes nothing else: PC stays, and
the HALT word it then runs adds nothing (40_execution_loop.md section 1; FAULT is the spec's decision
D9). -/
def Obligations.FetchPastTheEndTakesProgramBoundsFault : Prop :=
  ∀ s : State, s.runState = .running → s.cfg.n ≤ s.pc →
    step s = .next (s.afterFaults [.programBounds])

/-- The values the spec numbers decide everything: two opcode maps that agree on the nine implemented
names give the same step (30_encoding.md section 3, the spec's derivation). -/
def Obligations.ReservedOpcodeValuesDoNotMatter : Prop :=
  ∀ (s : State) (m : OpcodeMap),
    (∀ n ∈ OpName.implemented, m.code n = s.cfg.opcodeMap.code n) →
    step (s.withOpcodeMap m) = mapNext (fun t => t.withOpcodeMap m) (step s)

/-- The two values of POP_FAULT_MODE (the spec's decision D8) give the same FAULT and run state after
an instruction, and the same everything where the run goes on. -/
def Obligations.PopFaultModesAgreeOnTheFault : Prop :=
  ∀ (i : Instr) (s t u : State),
    exec i (s.withPopFaultMode .abort) = .next t →
    exec i (s.withPopFaultMode .continues) = .next u →
    t.fault = u.fault ∧ t.runState = u.runState ∧
    (t.runState = .running → u = t.withPopFaultMode .continues)

/-- In a run, a step takes at most one fault under Abort and at most three under Continue
(60_exceptions.md section 2, the spec's derivations). -/
def Obligations.FaultsOfOneStepAreFew : Prop :=
  ∀ s t : State, s.runState = .running → step s = .next t →
    (s.cfg.popFaultMode = .abort → (diagKinds (t.events.drop s.events.length)).length ≤ 1) ∧
    (diagKinds (t.events.drop s.events.length)).length ≤ 3

/-- While the run is still going after k steps, PC is k: step number k of a run fetches address k
(40_execution_loop.md section 4, the spec's derivation). -/
def Obligations.StepNumberIsTheAddressFetched : Prop :=
  ∀ (s s1 t : State) (k : Nat), startRun s = .next s1 → loop k s1 = .next t →
    t.runState = .running → t.pc = k

/-- Every run of a core that meets the invariant halts within N + 1 steps, and RUN returns FAULT
(40_execution_loop.md section 4, the spec's derivation; FAULT is its decision D9). -/
def Obligations.EveryRunHaltsWithinNPlusOneSteps : Prop :=
  ∀ s : State, s.Inv → s.runState ≠ .running →
    ∃ (s1 t : State) (k : Nat), startRun s = .next s1 ∧ k ≤ s.cfg.n + 1 ∧
      loop k s1 = .next t ∧ t.runState = .halted ∧ runProgram s = .next (t, t.fault)

/-- What RUN returns is the code of the first fault of the run, 0 if it took none, and the events sent
before the run stand before its own (40_execution_loop.md section 4, 10_state.md section 4; FAULT is
the spec's decision D9). -/
def Obligations.RunReturnsItsFirstFault : Prop :=
  ∀ (s t : State) (code : BitVec 3), runProgram s = .next (t, code) →
    code = firstFaultCode (t.events.drop s.events.length) ∧
    t.events.take s.events.length = s.events

/-- A word that PUSH writes just ahead of PC is the next one executed, with no fence
(20_memory.md section 5, the spec's derivation). -/
def Obligations.FetchSeesThePushedWord : Prop :=
  ∀ (s : State) (x : Operand), s.cfg.sizesWf = true → s.runState = .running →
    s.sp = s.pc + 1 → s.sp < s.cfg.n →
    decode s.cfg.opcodeMap (s.wordAt s.pc) = .instr (.push x) →
    ∃ t, step s = .next t ∧ t.runState = .running ∧ t.pc = s.sp ∧
      step t = execute (BitVec.ofNat 32 x.toNat) { t with pc := s.sp + 1 }

/-- A pushed word is the word the next PRINT sends, and SP is back where it was
(20_memory.md section 3). -/
def Obligations.PushThenPrintSendsTheImmediate : Prop :=
  ∀ (x y : Operand) (s : State), s.cfg.sizesWf = true → SpInRange s → s.sp < s.cfg.n →
    ∃ t u, exec (.push x) s = .next t ∧ exec (.print y) t = .next u ∧ u.sp = s.sp ∧
      u.events = s.events ++ [.out (BitVec.ofNat 32 x.toNat)]

/-! ### Commands and construction -/

/-- Once the core is Halted, the loop performs no further step, and the only way out is RUN
(10_state.md section 3). The last clause is about a waiting core's step, which takes the next command
of the inbox; that list and that step are the model's own DESIGN CHOICE (log 5). -/
def Obligations.HaltedIsLeftByRunAlone : Prop :=
  ∀ s : State, s.runState = .halted →
    (∀ fuel, loop fuel s = .next s) ∧
    (∀ (c : Command) (t : State), command c s = .next t → t.runState = .halted ∨ c = .run) ∧
    ∀ t : State, step s = .next t → t.runState = .halted ∨ s.inbox.head? = some .run

/-- In Idle and Halted a step takes the host's next command, and without one changes nothing. That the
host's commands wait in a list is the model's own (log 5; 60_exceptions.md section 7). -/
def Obligations.WaitingCoreTakesTheNextCommand : Prop :=
  ∀ s : State, s.runState ≠ .running →
    (s.inbox = [] → step s = .next s) ∧
    ∀ (c : Command) (rest : List Command), s.inbox = c :: rest →
      step s = command c { s with inbox := rest }

/-- R75: LOAD copies the words that fit into the code region, drops the rest, and changes nothing
else. -/
def Obligations.LoadCopiesIntoTheCodeRegion : Prop :=
  ∀ (words : List Word) (s : State), s.cfg.sizesWf = true → s.runState ≠ .running →
    ∃ t, command (.load words) s = .next t ∧
      (∀ (i : Nat) (h : i < words.length), i < s.cfg.codeSize → t.wordAt i = words[i]) ∧
      (∀ i, min words.length s.cfg.codeSize ≤ i → t.wordAt i = s.wordAt i) ∧
      t = { s with mem := t.mem }

/-- While Running, LOAD and RUN are refused (the spec's decision D17), and DUMP changes nothing. -/
def Obligations.LoadAndRunAreRefusedWhileRunning : Prop :=
  ∀ (words : List Word) (s : State), s.runState = .running →
    command (.load words) s = .refused .commandWhileRunning ∧
    command .run s = .refused .commandWhileRunning ∧ command .dump s = .next s

/-- What RUN resets under each RESTART_POLICY (70_reset_and_hazards.md section 2; the policy is the
spec's decision D16, FAULT its D9; `runMark` is the model's own, log 6). -/
def Obligations.RunStartsAtTheEntryPoint : Prop :=
  ∀ s : State, s.runState ≠ .running →
    (s.cfg.restartPolicy = .fullReset → command .run s = .next
      { s with
        pc := 0, sp := s.cfg.stackStart, a := 0, b := 0, c := 0, fault := 0
        runState := .running, runMark := s.events.length }) ∧
    (s.cfg.restartPolicy = .carryOver → command .run s = .next
      { s with pc := 0, fault := 0, runState := .running, runMark := s.events.length })

/-- DUMP returns the registers and the last words of the stack, at most 10, bottom first, in every run
state, and changes nothing (60_exceptions.md section 6; the form is the spec's decision D21). -/
def Obligations.DumpReturnsTheLastTenStackWords : Prop :=
  ∀ s : State, s.cfg.sizesWf = true → SpInRange s →
    dump s = .next
      { pc := s.pc, sp := s.sp, a := s.a, b := s.b, c := s.c
        words := (List.range (min 10 (s.sp - s.cfg.stackStart))).map fun k =>
          s.wordAt (max s.cfg.stackStart (s.sp - 10) + k) } ∧
    command .dump s = .next s

/-- CONSTRUCT accepts exactly the well-formed sizes, and what a fresh core holds (70_reset_and_hazards.md
section 1, 10_state.md section 7, 00_scope.md section 3; the values are the spec's decisions D2, D4 to
D7 and D9; MEM_INIT is the free value of log 2, and this holds for every value of it). -/
def Obligations.ConstructMakesAFreshCore : Prop :=
  ∀ (n stackSize dataStart : Option Nat) (model : Config), model.opcodeMap.wf = true →
    let size := n.getD 1024
    let stack := stackSize.getD 256
    let data := dataStart.getD 512
    ((1 ≤ size ∧ size ≤ 2 ^ 32 - 1 ∧ 1 ≤ stack ∧ stack ≤ size ∧ data ≤ size - stack) →
      ∃ s, construct n stackSize dataStart model = .next s ∧
        s.cfg = { model with n := size, stackSize := stack, dataStart := data } ∧
        s.pc = 0 ∧ s.sp = size - stack ∧ s.a = 0 ∧ s.b = 0 ∧ s.c = 0 ∧ s.runState = .idle ∧
        s.fault = 0 ∧ (∀ i, s.wordAt i = Config.memInit i) ∧ s.events = [] ∧ s.inbox = []) ∧
    (¬(1 ≤ size ∧ size ≤ 2 ^ 32 - 1 ∧ 1 ≤ stack ∧ stack ≤ size ∧ data ≤ size - stack) →
      construct n stackSize dataStart model = .refused .illFormedConfig)

/-! ### Invariants -/

/-- The state after CONSTRUCT with the defaults is the reset state, and it meets the invariant
(10_state.md sections 6 and 7; the values are the spec's decisions D4 to D6 and D9). -/
def Obligations.ResetMeetsTheInvariant : Prop :=
  construct none none none defaultConfig = .next State.reset ∧ State.reset.Inv

/-- Every core that CONSTRUCT makes meets the invariant (10_state.md section 6). -/
def Obligations.EveryConstructedCoreMeetsTheInvariant : Prop :=
  ∀ (n stackSize dataStart : Option Nat) (model : Config) (s : State),
    construct n stackSize dataStart model = .next s → s.Inv

/-- Every step, of a run or of a command, keeps the invariant: PC and SP stay in their ranges, memory in
its canonical form, FAULT the first DIAG event of the run (10_state.md section 6, the spec's
derivation). -/
def Obligations.StepKeepsTheInvariant : Prop :=
  ∀ s t : State, s.Inv → step s = .next t → t.Inv

/-- From a state that meets the invariant the machine never stops with a fault or a refusal of the
model: every one of the 2^32 words has its effect (30_encoding.md section 4). -/
def Obligations.StepNeverStopsUnderTheInvariant : Prop :=
  ∀ s : State, s.Inv → ∃ t, step s = .next t

/-- FAULT never holds 6 or 7 (10_state.md section 4; FAULT is the spec's decision D9). -/
def Obligations.FaultHoldsALegalCode : Prop :=
  ∀ s : State, s.Inv → s.fault.toNat ≤ 5

/-- A run writes the stack region alone, and no step writes the data region
(20_memory.md sections 1 and 3, the spec's derivations). -/
def Obligations.StepsWriteOnlyTheirOwnRegion : Prop :=
  ∀ s t : State, s.Inv → step s = .next t →
    (s.runState = .running → ∀ a, a < s.cfg.stackStart → t.wordAt a = s.wordAt a) ∧
    ∀ a, s.cfg.codeSize ≤ a → a < s.cfg.stackStart → t.wordAt a = s.wordAt a

/-- The line of an OUT event is `Output: `, the decimal digits of the value with no leading zero, and
one line feed (43_control_output.md section 2; unsigned and line feed are the spec's decision D11). -/
def Obligations.OutputLineIsTheUnsignedDecimal : Prop :=
  ∀ v : Word, ∃ digits : List Nat,
    outputLine v = ['O', 'u', 't', 'p', 'u', 't', ':', ' '] ++ digits.map digitChar ++ ['\n'] ∧
    (∀ d ∈ digits, d < 10) ∧ digits.foldl (fun acc d => 10 * acc + d) 0 = v.toNat ∧
    (digits = [0] ∨ ∃ d rest, digits = d :: rest ∧ d ≠ 0)
end

