-- ==== Sys2Proof/Laws/Codec.lean ====
section
/-! SUPPORT. The fields of a packed word, and the name an opcode map gives a value. -/

namespace Sys2Proof

theorem opcodeField_packWord (v : Opcode) (x : Operand) : opcodeField (packWord v x) = v := by
  ext i hi
  simp only [opcodeField, packWord, BitVec.getElem_setWidth, BitVec.getLsbD_and,
    BitVec.getLsbD_or, BitVec.getLsbD_shiftLeft, BitVec.getLsbD_setWidth]
  have : (255#32).getLsbD i = true := by interval_cases i <;> rfl
  simp [this, show i < 32 by omega, hi]

theorem operandField_packWord (v : Opcode) (x : Operand) : operandField (packWord v x) = x := by
  ext i hi
  simp only [operandField, packWord, BitVec.getElem_setWidth, BitVec.getLsbD_ushiftRight,
    BitVec.getLsbD_or, BitVec.getLsbD_shiftLeft, BitVec.getLsbD_setWidth]
  simp [show 8 + i < 32 by omega, BitVec.getLsbD_eq_getElem hi, show i < 32 by omega]

@[simp] theorem instr_name (n : OpName) (x : Operand) : (n.instr x).name = n := by cases n <;> rfl

@[simp] theorem instr_operand (n : OpName) (x : Operand) : (n.instr x).operand = x := by
  cases n <;> rfl

@[simp] theorem name_instr_operand (i : Instr) : i.name.instr i.operand = i := by cases i <;> rfl

theorem OpName.mem_all (n : OpName) : n ∈ OpName.all := by cases n <;> decide

theorem OpcodeMap.code_injective {m : OpcodeMap} (h : m.wf = true) {p q : OpName}
    (hc : m.code p = m.code q) : p = q := by
  have hn : m.codes.Nodup := by
    simp only [OpcodeMap.wf, Bool.and_eq_true, decide_eq_true_eq] at h
    exact h.1
  exact List.inj_on_of_nodup_map hn (OpName.mem_all p) (OpName.mem_all q) hc

/-- A name found for a value has that value. -/
theorem code_of_nameOf {m : OpcodeMap} {v : Opcode} {n : OpName} (h : nameOf m v = some n) :
    m.code n = v := by
  simpa using List.find?_some h

/-- Under a legal map, the value of a name names it. -/
theorem nameOf_code {m : OpcodeMap} (h : m.wf = true) (n : OpName) : nameOf m (m.code n) = some n := by
  cases hf : nameOf m (m.code n) with
  | none =>
    have := List.find?_eq_none.mp hf n (OpName.mem_all n)
    simp at this
  | some q => rw [OpcodeMap.code_injective h (code_of_nameOf hf)]

end Sys2Proof
end

