-- ==== Sys2Proof/Laws/State.lean ====
section
/-! SUPPORT. One lemma for each field and each update of State, so that no later proof unfolds a record
update. -/

namespace Sys2Proof.Machine.State

variable (s : State)

@[simp] theorem withPc_cfg (v : Nat) : (s.withPc v).cfg = s.cfg := rfl
@[simp] theorem withPc_pc (v : Nat) : (s.withPc v).pc = v := rfl
@[simp] theorem withPc_sp (v : Nat) : (s.withPc v).sp = s.sp := rfl
@[simp] theorem withPc_a (v : Nat) : (s.withPc v).a = s.a := rfl
@[simp] theorem withPc_b (v : Nat) : (s.withPc v).b = s.b := rfl
@[simp] theorem withPc_c (v : Nat) : (s.withPc v).c = s.c := rfl
@[simp] theorem withPc_runState (v : Nat) : (s.withPc v).runState = s.runState := rfl
@[simp] theorem withPc_fault (v : Nat) : (s.withPc v).fault = s.fault := rfl
@[simp] theorem withPc_mem (v : Nat) : (s.withPc v).mem = s.mem := rfl
@[simp] theorem withPc_events (v : Nat) : (s.withPc v).events = s.events := rfl
@[simp] theorem withPc_runMark (v : Nat) : (s.withPc v).runMark = s.runMark := rfl
@[simp] theorem withPc_inbox (v : Nat) : (s.withPc v).inbox = s.inbox := rfl

@[simp] theorem withSp_cfg (v : Nat) : (s.withSp v).cfg = s.cfg := rfl
@[simp] theorem withSp_pc (v : Nat) : (s.withSp v).pc = s.pc := rfl
@[simp] theorem withSp_sp (v : Nat) : (s.withSp v).sp = v := rfl
@[simp] theorem withSp_a (v : Nat) : (s.withSp v).a = s.a := rfl
@[simp] theorem withSp_b (v : Nat) : (s.withSp v).b = s.b := rfl
@[simp] theorem withSp_c (v : Nat) : (s.withSp v).c = s.c := rfl
@[simp] theorem withSp_runState (v : Nat) : (s.withSp v).runState = s.runState := rfl
@[simp] theorem withSp_fault (v : Nat) : (s.withSp v).fault = s.fault := rfl
@[simp] theorem withSp_mem (v : Nat) : (s.withSp v).mem = s.mem := rfl
@[simp] theorem withSp_events (v : Nat) : (s.withSp v).events = s.events := rfl
@[simp] theorem withSp_runMark (v : Nat) : (s.withSp v).runMark = s.runMark := rfl
@[simp] theorem withSp_inbox (v : Nat) : (s.withSp v).inbox = s.inbox := rfl

@[simp] theorem withScratch_cfg (x y z : Word) : (s.withScratch x y z).cfg = s.cfg := rfl
@[simp] theorem withScratch_pc (x y z : Word) : (s.withScratch x y z).pc = s.pc := rfl
@[simp] theorem withScratch_sp (x y z : Word) : (s.withScratch x y z).sp = s.sp := rfl
@[simp] theorem withScratch_a (x y z : Word) : (s.withScratch x y z).a = x := rfl
@[simp] theorem withScratch_b (x y z : Word) : (s.withScratch x y z).b = y := rfl
@[simp] theorem withScratch_c (x y z : Word) : (s.withScratch x y z).c = z := rfl
@[simp] theorem withScratch_runState (x y z : Word) : (s.withScratch x y z).runState = s.runState := rfl
@[simp] theorem withScratch_fault (x y z : Word) : (s.withScratch x y z).fault = s.fault := rfl
@[simp] theorem withScratch_mem (x y z : Word) : (s.withScratch x y z).mem = s.mem := rfl
@[simp] theorem withScratch_events (x y z : Word) : (s.withScratch x y z).events = s.events := rfl
@[simp] theorem withScratch_runMark (x y z : Word) : (s.withScratch x y z).runMark = s.runMark := rfl
@[simp] theorem withScratch_inbox (x y z : Word) : (s.withScratch x y z).inbox = s.inbox := rfl

@[simp] theorem withRunState_cfg (r : RunState) : (s.withRunState r).cfg = s.cfg := rfl
@[simp] theorem withRunState_pc (r : RunState) : (s.withRunState r).pc = s.pc := rfl
@[simp] theorem withRunState_sp (r : RunState) : (s.withRunState r).sp = s.sp := rfl
@[simp] theorem withRunState_a (r : RunState) : (s.withRunState r).a = s.a := rfl
@[simp] theorem withRunState_b (r : RunState) : (s.withRunState r).b = s.b := rfl
@[simp] theorem withRunState_c (r : RunState) : (s.withRunState r).c = s.c := rfl
@[simp] theorem withRunState_runState (r : RunState) : (s.withRunState r).runState = r := rfl
@[simp] theorem withRunState_fault (r : RunState) : (s.withRunState r).fault = s.fault := rfl
@[simp] theorem withRunState_mem (r : RunState) : (s.withRunState r).mem = s.mem := rfl
@[simp] theorem withRunState_events (r : RunState) : (s.withRunState r).events = s.events := rfl
@[simp] theorem withRunState_runMark (r : RunState) : (s.withRunState r).runMark = s.runMark := rfl
@[simp] theorem withRunState_inbox (r : RunState) : (s.withRunState r).inbox = s.inbox := rfl

@[simp] theorem withFault_cfg (v : BitVec 3) : (s.withFault v).cfg = s.cfg := rfl
@[simp] theorem withFault_pc (v : BitVec 3) : (s.withFault v).pc = s.pc := rfl
@[simp] theorem withFault_sp (v : BitVec 3) : (s.withFault v).sp = s.sp := rfl
@[simp] theorem withFault_a (v : BitVec 3) : (s.withFault v).a = s.a := rfl
@[simp] theorem withFault_b (v : BitVec 3) : (s.withFault v).b = s.b := rfl
@[simp] theorem withFault_c (v : BitVec 3) : (s.withFault v).c = s.c := rfl
@[simp] theorem withFault_runState (v : BitVec 3) : (s.withFault v).runState = s.runState := rfl
@[simp] theorem withFault_fault (v : BitVec 3) : (s.withFault v).fault = v := rfl
@[simp] theorem withFault_mem (v : BitVec 3) : (s.withFault v).mem = s.mem := rfl
@[simp] theorem withFault_events (v : BitVec 3) : (s.withFault v).events = s.events := rfl
@[simp] theorem withFault_runMark (v : BitVec 3) : (s.withFault v).runMark = s.runMark := rfl
@[simp] theorem withFault_inbox (v : BitVec 3) : (s.withFault v).inbox = s.inbox := rfl

@[simp] theorem withMem_cfg (m : Memory) : (s.withMem m).cfg = s.cfg := rfl
@[simp] theorem withMem_pc (m : Memory) : (s.withMem m).pc = s.pc := rfl
@[simp] theorem withMem_sp (m : Memory) : (s.withMem m).sp = s.sp := rfl
@[simp] theorem withMem_a (m : Memory) : (s.withMem m).a = s.a := rfl
@[simp] theorem withMem_b (m : Memory) : (s.withMem m).b = s.b := rfl
@[simp] theorem withMem_c (m : Memory) : (s.withMem m).c = s.c := rfl
@[simp] theorem withMem_runState (m : Memory) : (s.withMem m).runState = s.runState := rfl
@[simp] theorem withMem_fault (m : Memory) : (s.withMem m).fault = s.fault := rfl
@[simp] theorem withMem_mem (m : Memory) : (s.withMem m).mem = m := rfl
@[simp] theorem withMem_events (m : Memory) : (s.withMem m).events = s.events := rfl
@[simp] theorem withMem_runMark (m : Memory) : (s.withMem m).runMark = s.runMark := rfl
@[simp] theorem withMem_inbox (m : Memory) : (s.withMem m).inbox = s.inbox := rfl

@[simp] theorem withRunMark_cfg (k : Nat) : (s.withRunMark k).cfg = s.cfg := rfl
@[simp] theorem withRunMark_pc (k : Nat) : (s.withRunMark k).pc = s.pc := rfl
@[simp] theorem withRunMark_sp (k : Nat) : (s.withRunMark k).sp = s.sp := rfl
@[simp] theorem withRunMark_a (k : Nat) : (s.withRunMark k).a = s.a := rfl
@[simp] theorem withRunMark_b (k : Nat) : (s.withRunMark k).b = s.b := rfl
@[simp] theorem withRunMark_c (k : Nat) : (s.withRunMark k).c = s.c := rfl
@[simp] theorem withRunMark_runState (k : Nat) : (s.withRunMark k).runState = s.runState := rfl
@[simp] theorem withRunMark_fault (k : Nat) : (s.withRunMark k).fault = s.fault := rfl
@[simp] theorem withRunMark_mem (k : Nat) : (s.withRunMark k).mem = s.mem := rfl
@[simp] theorem withRunMark_events (k : Nat) : (s.withRunMark k).events = s.events := rfl
@[simp] theorem withRunMark_runMark (k : Nat) : (s.withRunMark k).runMark = k := rfl
@[simp] theorem withRunMark_inbox (k : Nat) : (s.withRunMark k).inbox = s.inbox := rfl

@[simp] theorem withInbox_cfg (cs : List Command) : (s.withInbox cs).cfg = s.cfg := rfl
@[simp] theorem withInbox_pc (cs : List Command) : (s.withInbox cs).pc = s.pc := rfl
@[simp] theorem withInbox_sp (cs : List Command) : (s.withInbox cs).sp = s.sp := rfl
@[simp] theorem withInbox_a (cs : List Command) : (s.withInbox cs).a = s.a := rfl
@[simp] theorem withInbox_b (cs : List Command) : (s.withInbox cs).b = s.b := rfl
@[simp] theorem withInbox_c (cs : List Command) : (s.withInbox cs).c = s.c := rfl
@[simp] theorem withInbox_runState (cs : List Command) : (s.withInbox cs).runState = s.runState := rfl
@[simp] theorem withInbox_fault (cs : List Command) : (s.withInbox cs).fault = s.fault := rfl
@[simp] theorem withInbox_mem (cs : List Command) : (s.withInbox cs).mem = s.mem := rfl
@[simp] theorem withInbox_events (cs : List Command) : (s.withInbox cs).events = s.events := rfl
@[simp] theorem withInbox_runMark (cs : List Command) : (s.withInbox cs).runMark = s.runMark := rfl
@[simp] theorem withInbox_inbox (cs : List Command) : (s.withInbox cs).inbox = cs := rfl

@[simp] theorem send_cfg (e : Event) : (s.send e).cfg = s.cfg := rfl
@[simp] theorem send_pc (e : Event) : (s.send e).pc = s.pc := rfl
@[simp] theorem send_sp (e : Event) : (s.send e).sp = s.sp := rfl
@[simp] theorem send_a (e : Event) : (s.send e).a = s.a := rfl
@[simp] theorem send_b (e : Event) : (s.send e).b = s.b := rfl
@[simp] theorem send_c (e : Event) : (s.send e).c = s.c := rfl
@[simp] theorem send_runState (e : Event) : (s.send e).runState = s.runState := rfl
@[simp] theorem send_fault (e : Event) : (s.send e).fault = s.fault := rfl
@[simp] theorem send_mem (e : Event) : (s.send e).mem = s.mem := rfl
@[simp] theorem send_events (e : Event) : (s.send e).events = s.events ++ [e] := rfl
@[simp] theorem send_runMark (e : Event) : (s.send e).runMark = s.runMark := rfl
@[simp] theorem send_inbox (e : Event) : (s.send e).inbox = s.inbox := rfl

end Sys2Proof.Machine.State
end

