-- ==== Sys2Proof/Laws/Ops.lean ====
section
/-! SUPPORT. For each shared operation, what it can do, said once. -/

namespace Sys2Proof.Machine

/-! ### andThen -/

section
variable {α β : Type}

@[simp] theorem andThen_next (v : α) (f : α → Result β) : andThen (.next v) f = f v := rfl

@[simp] theorem andThen_fault (r : Fault) (f : α → Result β) :
    andThen (.fault r) f = .fault r := rfl

@[simp] theorem andThen_refused (r : Refusal) (f : α → Result β) :
    andThen (.refused r) f = .refused r := rfl

/-- Two operations in a row answer exactly when both do. -/
theorem andThen_eq_next {x : Result α} {f : α → Result β} {w : β} :
    andThen x f = .next w ↔ ∃ v, x = .next v ∧ f v = .next w := by
  cases x <;> simp [andThen]

end

/-! ### Memory -/

namespace Memory

/-- Read after write, on any list. -/
theorem read?_write (m : Memory) (i j : Nat) (v : Word) :
    (m.write i v).read? j = if j = i then some v else m.read? j := by
  induction m with
  | nil => simp [write, read?, eq_comm]
  | cons x rest ih =>
    obtain ⟨k, w⟩ := x
    simp only [write]
    split
    · by_cases hj : j = i
      · simp [read?, hj]
      · simp [read?, hj, Ne.symm hj]
    · split
      · subst k
        by_cases hj : j = i
        · simp [read?, hj]
        · simp [read?, hj, Ne.symm hj]
      · simp only [read?, ih]
        by_cases hj : j = i
        · subst hj; simp; omega
        · simp [hj]

/-- Every listed address of a written memory is the written one or was listed before. -/
theorem mem_write {m : Memory} {i : Nat} {v : Word} {cell : Cell} (h : cell ∈ m.write i v) :
    cell.1 = i ∨ cell ∈ m := by
  induction m with
  | nil => simp_all [write]
  | cons x rest ih =>
    obtain ⟨k, w⟩ := x
    simp only [write] at h
    split at h
    · rcases List.mem_cons.mp h with rfl | h
      · exact .inl rfl
      · exact .inr h
    · split at h
      · rcases List.mem_cons.mp h with rfl | h
        · exact .inl rfl
        · exact .inr (List.mem_cons_of_mem _ h)
      · rcases List.mem_cons.mp h with rfl | h
        · exact .inr List.mem_cons_self
        · exact (ih h).imp id (List.mem_cons_of_mem _)

theorem wf_cons_iff (x : Cell) (m : Memory) :
    Memory.wf (x :: m) = true ↔ (∀ y ∈ m, x.1 < y.1) ∧ Memory.wf m = true := by
  induction m generalizing x with
  | nil => simp [wf]
  | cons y rest ih =>
    simp only [wf, Bool.and_eq_true, decide_eq_true_eq, List.forall_mem_cons]
    constructor
    · rintro ⟨hxy, h⟩
      exact ⟨⟨hxy, fun z hz => hxy.trans (((ih y).mp h).1 z hz)⟩, h⟩
    · rintro ⟨⟨hxy, -⟩, h⟩
      exact ⟨hxy, h⟩

/-- A write keeps the canonical form. -/
theorem wf_write {m : Memory} (hm : m.wf = true) (i : Nat) (v : Word) :
    (m.write i v).wf = true := by
  induction m with
  | nil => rfl
  | cons x rest ih =>
    obtain ⟨k, w⟩ := x
    obtain ⟨hx, hrest⟩ := (wf_cons_iff _ _).mp hm
    simp only [write]
    split
    · exact (wf_cons_iff _ _).mpr
        ⟨by rintro y hy
            rcases List.mem_cons.mp hy with rfl | hy
            · assumption
            · exact lt_trans ‹i < k› (hx y hy), hm⟩
    · split
      · subst k; exact (wf_cons_iff _ _).mpr ⟨hx, hrest⟩
      · refine (wf_cons_iff _ _).mpr ⟨fun y hy => ?_, ih hrest⟩
        rcases mem_write hy with h | h
        · simp only; omega
        · exact hx y h

/-- Two canonical memories that read alike everywhere are the same list. -/
theorem ext_of_wf {m₁ m₂ : Memory} (h₁ : m₁.wf = true) (h₂ : m₂.wf = true)
    (h : ∀ i, m₁.read? i = m₂.read? i) : m₁ = m₂ := by
  have none_of_lt : ∀ (m : Memory) (i : Nat), (∀ y ∈ m, i < y.1) → m.read? i = none := by
    intro m i hm
    induction m with
    | nil => rfl
    | cons y rest ih =>
      obtain ⟨hy, hr⟩ := List.forall_mem_cons.mp hm
      simp only [read?]
      rw [if_neg (by omega), ih hr]
  induction m₁ generalizing m₂ with
  | nil =>
    cases m₂ with
    | nil => rfl
    | cons y rest => have := h y.1; simp [read?] at this
  | cons x rest ih =>
    cases m₂ with
    | nil => have := h x.1; simp [read?] at this
    | cons y rest' =>
      obtain ⟨hx, hr⟩ := (wf_cons_iff _ _).mp h₁
      obtain ⟨hy, hr'⟩ := (wf_cons_iff _ _).mp h₂
      obtain ⟨k, v⟩ := x
      obtain ⟨k', v'⟩ := y
      have hk : k = k' := by
        rcases Nat.lt_trichotomy k k' with hlt | heq | hgt
        · have e := h k
          rw [none_of_lt _ _ (List.forall_mem_cons.mpr ⟨hlt, fun z hz => hlt.trans (hy z hz)⟩)] at e
          simp [read?] at e
        · exact heq
        · have e := h k'
          rw [none_of_lt _ _ (List.forall_mem_cons.mpr ⟨hgt, fun z hz => hgt.trans (hx z hz)⟩)] at e
          simp [read?] at e
      subst hk
      have hv : v = v' := by have := h k; simpa [read?] using this
      subst hv
      congr 1
      refine ih hr hr' fun i => ?_
      by_cases hi : k = i
      · subst hi; rw [none_of_lt _ _ hx, none_of_lt _ _ hy]
      · have := h i; simpa [read?, hi] using this

end Memory

/-- A word after a write of memory. -/
theorem wordAt_withMem_write (s : State) (i j : Nat) (v : Word) :
    (s.withMem (s.mem.write i v)).wordAt j = if j = i then v else s.wordAt j := by
  simp only [State.wordAt, State.withMem_mem, Memory.read?_write]
  split <;> rfl

/-- `wordAt` looks at memory alone. -/
theorem wordAt_congr {s t : State} (h : t.mem = s.mem) (i : Nat) : t.wordAt i = s.wordAt i := by
  simp only [State.wordAt, h]

section
variable (s : State) (i : Nat)

@[simp] theorem wordAt_withPc (v : Nat) : (s.withPc v).wordAt i = s.wordAt i := rfl
@[simp] theorem wordAt_withSp (v : Nat) : (s.withSp v).wordAt i = s.wordAt i := rfl
@[simp] theorem wordAt_withScratch (x y z : Word) :
    (s.withScratch x y z).wordAt i = s.wordAt i := rfl
@[simp] theorem wordAt_withRunState (r : RunState) : (s.withRunState r).wordAt i = s.wordAt i := rfl
@[simp] theorem wordAt_withFault (v : BitVec 3) : (s.withFault v).wordAt i = s.wordAt i := rfl
@[simp] theorem wordAt_withRunMark (k : Nat) : (s.withRunMark k).wordAt i = s.wordAt i := rfl
@[simp] theorem wordAt_withInbox (cs : List Command) : (s.withInbox cs).wordAt i = s.wordAt i := rfl
@[simp] theorem wordAt_send (e : Event) : (s.send e).wordAt i = s.wordAt i := rfl

end

theorem memRead_eq_next {i : Nat} {s : State} {v : Word} :
    memRead i s = .next v ↔ i < s.cfg.n ∧ v = s.wordAt i := by
  unfold memRead
  split <;> simp_all [eq_comm]

theorem memWrite_eq_next {i : Nat} {v : Word} {s t : State} :
    memWrite i v s = .next t ↔ i < s.cfg.n ∧ t = s.withMem (s.mem.write i v) := by
  unfold memWrite
  split <;> simp_all [eq_comm]

/-! ### Taking a fault -/

section
variable (k : FaultKind) (s : State)

@[simp] theorem running_iff : s.running = true ↔ s.runState = .running := by
  simp [State.running]

@[simp] theorem clearRunning_eq : clearRunning s = s.withRunState .halted := rfl

@[simp] theorem raise_fault : (raise k s).fault = if s.fault = 0 then k.code else s.fault := by
  simp only [raise, clearRunning, recordFault]; split <;> simp_all

@[simp] theorem raise_events : (raise k s).events = s.events ++ [.diag k] := by
  simp only [raise, clearRunning, recordFault]; split <;> simp

@[simp] theorem raise_runState : (raise k s).runState = .halted := rfl

@[simp] theorem raise_cfg : (raise k s).cfg = s.cfg := by
  simp only [raise, clearRunning, recordFault]; split <;> simp

@[simp] theorem raise_pc : (raise k s).pc = s.pc := by
  simp only [raise, clearRunning, recordFault]; split <;> simp

@[simp] theorem raise_sp : (raise k s).sp = s.sp := by
  simp only [raise, clearRunning, recordFault]; split <;> simp

@[simp] theorem raise_a : (raise k s).a = s.a := by
  simp only [raise, clearRunning, recordFault]; split <;> simp

@[simp] theorem raise_b : (raise k s).b = s.b := by
  simp only [raise, clearRunning, recordFault]; split <;> simp

@[simp] theorem raise_c : (raise k s).c = s.c := by
  simp only [raise, clearRunning, recordFault]; split <;> simp

@[simp] theorem raise_mem : (raise k s).mem = s.mem := by
  simp only [raise, clearRunning, recordFault]; split <;> simp

@[simp] theorem raise_runMark : (raise k s).runMark = s.runMark := by
  simp only [raise, clearRunning, recordFault]; split <;> simp

@[simp] theorem raise_inbox : (raise k s).inbox = s.inbox := by
  simp only [raise, clearRunning, recordFault]; split <;> simp

@[simp] theorem wordAt_raise (i : Nat) : (raise k s).wordAt i = s.wordAt i :=
  wordAt_congr (raise_mem k s) i

/-- `raise` written as one record update. -/
theorem raise_eq : raise k s =
    { s with
      events := s.events ++ [.diag k]
      fault := if s.fault = 0 then k.code else s.fault
      runState := .halted } := by
  by_cases h : s.fault = 0#3
  · simp [raise, recordFault, h, State.send, State.withFault, State.withRunState]
  · simp [raise, recordFault, h, State.send, State.withRunState]

@[simp] theorem FaultKind.code_ne_zero : k.code ≠ 0#3 := by cases k <;> decide

end

/-! ### The stack engine -/

/-- All a push can do when it answers. -/
theorem push_cases {v : Word} {s t : State} {st : Status} (h : push v s = .next (st, t)) :
    (s.sp < s.cfg.stackStart + s.cfg.stackSize ∧ s.sp < s.cfg.n ∧ st = .ok ∧
      t = (s.withMem (s.mem.write s.sp v)).withSp (s.sp + 1)) ∨
    (s.cfg.stackStart + s.cfg.stackSize ≤ s.sp ∧ st = .fail ∧ t = raise .stackOverflow s) := by
  unfold push at h
  split at h
  · obtain ⟨s', hw, h⟩ := andThen_eq_next.mp h
    obtain ⟨hn, rfl⟩ := memWrite_eq_next.mp hw
    simp only [Host.Outcome.next.injEq, Prod.mk.injEq] at h
    exact .inl ⟨‹_›, hn, h.1.symm, h.2.symm⟩
  · simp only [Host.Outcome.next.injEq, Prod.mk.injEq] at h
    exact .inr ⟨by omega, h.1.symm, h.2.symm⟩

/-- All a pop can do when it answers. -/
theorem pop_cases {v : Word} {s t : State} {st : Status} (h : pop s = .next (v, st, t)) :
    (s.cfg.stackStart < s.sp ∧ s.sp - 1 < s.cfg.n ∧ v = s.wordAt (s.sp - 1) ∧ st = .ok ∧
      t = s.withSp (s.sp - 1)) ∨
    (s.sp ≤ s.cfg.stackStart ∧ v = 0 ∧ st = .fail ∧ t = raise .stackUnderflow s) := by
  unfold pop at h
  split at h
  · obtain ⟨v', hr, h⟩ := andThen_eq_next.mp h
    obtain ⟨hn, rfl⟩ := memRead_eq_next.mp hr
    simp only [Host.Outcome.next.injEq, Prod.mk.injEq] at h
    exact .inl ⟨‹_›, hn, h.1.symm, h.2.1.symm, h.2.2.symm⟩
  · simp only [Host.Outcome.next.injEq, Prod.mk.injEq] at h
    exact .inr ⟨by omega, h.1.symm, h.2.1.symm, h.2.2.symm⟩

/-- A push with room answers. -/
theorem push_of_lt {v : Word} {s : State} (h : s.sp < s.cfg.stackStart + s.cfg.stackSize)
    (hn : s.sp < s.cfg.n) :
    push v s = .next (.ok, (s.withMem (s.mem.write s.sp v)).withSp (s.sp + 1)) := by
  simp [push, memWrite, h, hn]

/-- A pop of a non-empty stack answers. -/
theorem pop_of_lt {s : State} (h : s.cfg.stackStart < s.sp) (hn : s.sp - 1 < s.cfg.n) :
    pop s = .next (s.wordAt (s.sp - 1), .ok, s.withSp (s.sp - 1)) := by
  simp [pop, memRead, h, hn]

/-- A pop of an empty stack answers the sentinel. -/
theorem pop_of_le {s : State} (h : s.sp ≤ s.cfg.stackStart) :
    pop s = .next (0, .fail, raise .stackUnderflow s) := by
  simp [pop, Nat.not_lt.mpr h]

/-! ### Operand forms -/

/-- All an instruction that pops can do at the pop (40_execution_loop.md R114). -/
theorem withPop_cases {s t : State} {rest : Word → State → Result State}
    (h : withPop s rest = .next t) :
    (s.cfg.stackStart < s.sp ∧ s.sp - 1 < s.cfg.n ∧
      rest (s.wordAt (s.sp - 1)) (s.withSp (s.sp - 1)) = .next t) ∨
    (s.sp ≤ s.cfg.stackStart ∧ s.cfg.popFaultMode = .abort ∧ t = raise .stackUnderflow s) ∨
    (s.sp ≤ s.cfg.stackStart ∧ s.cfg.popFaultMode = .continues ∧
      rest 0 (raise .stackUnderflow s) = .next t) := by
  unfold withPop at h
  obtain ⟨⟨v, st, s'⟩, hp, h⟩ := andThen_eq_next.mp h
  rcases pop_cases hp with ⟨h1, h2, rfl, rfl, rfl⟩ | ⟨h1, rfl, rfl, rfl⟩
  · exact .inl ⟨h1, h2, by simpa using h⟩
  · cases hm : s.cfg.popFaultMode
    · simp only [raise_cfg, hm, and_self, if_true, Host.Outcome.next.injEq] at h
      exact .inr (.inl ⟨h1, rfl, h.symm⟩)
    · exact .inr (.inr ⟨h1, rfl, by simpa [hm] using h⟩)

/-- The pop of a non-empty stack, then the rest. -/
theorem withPop_of_lt {s : State} {rest : Word → State → Result State}
    (h : s.cfg.stackStart < s.sp) (hn : s.sp - 1 < s.cfg.n) :
    withPop s rest = rest (s.wordAt (s.sp - 1)) (s.withSp (s.sp - 1)) := by
  simp [withPop, pop_of_lt h hn]

/-- The pop of an empty stack under Abort ends the instruction. -/
theorem withPop_of_le_abort {s : State} {rest : Word → State → Result State}
    (h : s.sp ≤ s.cfg.stackStart) (hm : s.cfg.popFaultMode = .abort) :
    withPop s rest = .next (raise .stackUnderflow s) := by
  simp [withPop, pop_of_le h, hm]

/-- The pop of an empty stack under Continue goes on with 0. -/
theorem withPop_of_le_continues {s : State} {rest : Word → State → Result State}
    (h : s.sp ≤ s.cfg.stackStart) (hm : s.cfg.popFaultMode = .continues) :
    withPop s rest = rest 0 (raise .stackUnderflow s) := by
  simp [withPop, pop_of_le h, hm]

/-- All a last push can do. -/
theorem pushResult_cases {v : Word} {s t : State} (h : pushResult v s = .next t) :
    (s.sp < s.cfg.stackStart + s.cfg.stackSize ∧ s.sp < s.cfg.n ∧
      t = (s.withMem (s.mem.write s.sp v)).withSp (s.sp + 1)) ∨
    (s.cfg.stackStart + s.cfg.stackSize ≤ s.sp ∧ t = raise .stackOverflow s) := by
  unfold pushResult at h
  obtain ⟨⟨st, s'⟩, hp, h⟩ := andThen_eq_next.mp h
  obtain rfl : s' = t := by simpa using h
  rcases push_cases hp with ⟨h1, h2, -, h3⟩ | ⟨h1, -, h3⟩
  · exact .inl ⟨h1, h2, h3⟩
  · exact .inr ⟨h1, h3⟩

end Sys2Proof.Machine
end

