-- ==== Sys2Proof/Laws/Machine.lean ====
section
/-! SUPPORT. What fetching, loading, reading a range, classifying and stepping can do, said once. -/

namespace Sys2Proof.Machine

/-- The size constraints of 00_scope.md R7, as facts. -/
theorem sizesWf_iff (c : Config) : c.sizesWf = true ↔
    1 ≤ c.n ∧ c.n ≤ 2 ^ 32 - 1 ∧ 1 ≤ c.stackSize ∧ c.stackSize ≤ c.n ∧
      c.dataStart ≤ c.n - c.stackSize := by
  simp [Config.sizesWf, and_assoc]

/-- Under well-formed sizes the stack region ends at N and is not empty. -/
theorem stackStart_facts {c : Config} (h : c.sizesWf = true) :
    c.stackStart + c.stackSize = c.n ∧ c.stackStart < c.n ∧ c.codeSize ≤ c.stackStart := by
  obtain ⟨-, -, h3, h4, h5⟩ := (sizesWf_iff c).mp h
  simp only [Config.stackStart, Config.codeSize]
  omega

theorem sizesWf_of_wf {c : Config} (h : c.wf = true) : c.sizesWf = true := by
  simp only [Config.wf, Bool.and_eq_true] at h
  exact h.1

theorem raise_eq_afterFaults (k : FaultKind) (s : State) : raise k s = s.afterFaults [k] :=
  raise_eq k s

theorem afterFaults_afterFaults (s : State) (k : FaultKind) (ks : List FaultKind) :
    (s.afterFaults [k]).afterFaults ks = s.afterFaults (k :: ks) := by
  have hc : firstFaultCode [.diag k] ≠ 0 := by cases k <;> decide
  by_cases h : s.fault = 0#3 <;>
    simp_all [State.afterFaults, firstFaultCode, diagKinds]

/-! ### Runs of words -/

/-- What `writeFrom` does when all its addresses exist: it writes those words and nothing else. -/
theorem writeFrom_spec (ws : List Word) (i : Nat) (s : State) (h : i + ws.length ≤ s.cfg.n) :
    ∃ m, writeFrom i ws s = .next (s.withMem m) ∧
      (s.mem.wf = true → m.wf = true) ∧
      (∀ cell ∈ m, (i ≤ cell.1 ∧ cell.1 < i + ws.length) ∨ cell ∈ s.mem) ∧
      (∀ j, j < i ∨ i + ws.length ≤ j → m.read? j = s.mem.read? j) ∧
      ∀ (k : Nat) (hk : k < ws.length), m.read? (i + k) = some ws[k] := by
  induction ws generalizing i s with
  | nil => exact ⟨s.mem, rfl, id, fun _ hc => .inr hc, fun _ _ => rfl, fun k hk => by simp at hk⟩
  | cons w ws ih =>
    simp only [List.length_cons] at h
    have hi : i < s.cfg.n := by omega
    obtain ⟨m, hm, hwf, hin, hout, hget⟩ :=
      ih (i + 1) (s.withMem (s.mem.write i w)) (by simp; omega)
    refine ⟨m, ?_, fun hs => hwf (Memory.wf_write hs i w), fun cell hc => ?_, fun j hj => ?_, ?_⟩
    · simp only [writeFrom, memWrite, hi, if_true, andThen_next]
      exact hm
    · rcases hin cell hc with ⟨h1, h2⟩ | hc
      · exact .inl ⟨by omega, by simp only [List.length_cons]; omega⟩
      · rcases Memory.mem_write hc with he | hc
        · exact .inl ⟨by omega, by simp only [List.length_cons]; omega⟩
        · exact .inr hc
    · simp only [List.length_cons] at hj
      rw [hout j (by omega)]
      simp only [State.withMem_mem, Memory.read?_write]
      rw [if_neg (by omega)]
    · intro k hk
      cases k with
      | zero =>
        rw [Nat.add_zero, hout i (by omega)]
        simp [Memory.read?_write]
      | succ k =>
        simp only [List.length_cons] at hk
        have := hget k (by omega)
        rw [show i + 1 + k = i + (k + 1) by omega] at this
        simpa using this

/-- What `readFrom` answers when all its addresses exist. -/
theorem readFrom_spec (count lo : Nat) (s : State) (h : lo + count ≤ s.cfg.n) :
    readFrom lo count s = .next ((List.range count).map fun k => s.wordAt (lo + k)) := by
  induction count generalizing lo with
  | zero => rfl
  | succ count ih =>
    have hlo : lo < s.cfg.n := by omega
    simp only [readFrom, memRead, hlo, if_true, andThen_next, ih (lo + 1) (by omega),
      List.range_succ_eq_map, List.map_cons, List.map_map, Nat.add_zero]
    congr 2
    apply List.map_congr_left
    intro k _
    simp only [Function.comp_apply]
    congr 1
    omega

/-! ### Commands -/

/-- LOAD changes memory alone, and not while Running. -/
theorem loadProgram_cases {words : List Word} {s t : State} (h : loadProgram words s = .next t) :
    s.runState ≠ .running ∧ ∃ m, t = s.withMem m := by
  have hw : ∀ (ws : List Word) (i : Nat) (s : State), writeFrom i ws s = .next t →
      ∃ m, t = s.withMem m := by
    intro ws
    induction ws with
    | nil => exact fun i s h => ⟨s.mem, (Host.Outcome.next.inj h).symm⟩
    | cons w ws ih =>
      intro i s h
      obtain ⟨u, hu, h⟩ := andThen_eq_next.mp h
      obtain ⟨-, rfl⟩ := memWrite_eq_next.mp hu
      obtain ⟨m, rfl⟩ := ih _ _ h
      exact ⟨m, rfl⟩
  unfold loadProgram at h
  split at h
  · cases h
  · rename_i hr
    exact ⟨by simpa using hr, hw _ _ _ h⟩

/-- What RUN's start does, and not while Running. -/
theorem startRun_cases {s t : State} (h : startRun s = .next t) :
    s.runState ≠ .running ∧ t = (resetForRun s).withRunState .running := by
  unfold startRun at h
  split at h
  · cases h
  · rename_i hr
    exact ⟨by simpa using hr, (Host.Outcome.next.inj h).symm⟩

section
variable (s : State)

@[simp] theorem resetForRun_cfg : (resetForRun s).cfg = s.cfg := by
  unfold resetForRun; split <;> rfl
@[simp] theorem resetForRun_pc : (resetForRun s).pc = 0 := by
  unfold resetForRun; split <;> rfl
theorem resetForRun_sp : (resetForRun s).sp =
    match s.cfg.restartPolicy with
    | .fullReset => s.cfg.stackStart
    | .carryOver => s.sp := by
  unfold resetForRun; cases s.cfg.restartPolicy <;> rfl
@[simp] theorem resetForRun_fault : (resetForRun s).fault = 0 := by
  unfold resetForRun; split <;> rfl
@[simp] theorem resetForRun_mem : (resetForRun s).mem = s.mem := by
  unfold resetForRun; split <;> rfl
@[simp] theorem resetForRun_events : (resetForRun s).events = s.events := by
  unfold resetForRun; split <;> rfl
@[simp] theorem resetForRun_runMark : (resetForRun s).runMark = s.events.length := by
  unfold resetForRun; split <;> rfl
@[simp] theorem resetForRun_inbox : (resetForRun s).inbox = s.inbox := by
  unfold resetForRun; split <;> rfl

end

/-! ### Classification -/

/-- A value of an implemented class decodes to that name. -/
theorem nameOf_of_classify {m : OpcodeMap} {v : Opcode} {n : OpName}
    (h : classify m v = some n) : nameOf m v = some n := by
  have hall : OpName.all = OpName.implemented ++
      [.load, .store, .mov, .jmp, .jz, .jnz, .call, .ret, .read] := rfl
  rw [nameOf, hall, List.find?_append]
  simp only [classify] at h
  rw [h]
  rfl

/-- A value of the class Unknown decodes to no implemented name. -/
theorem not_implemented_of_classify {m : OpcodeMap} {v : Opcode} {n : OpName}
    (h : classify m v = none) (hn : nameOf m v = some n) : n ∉ OpName.implemented := by
  intro hmem
  have := List.find?_eq_none.mp h n hmem
  simp [code_of_nameOf hn] at this

/-! ### Instructions -/

/-- What every instruction is made of. A property that survives each of the five things an instruction
can do to a state (take a fault, send an OUT event if it is PRINT, pop, push, clear the running flag if
it is HALT) survives every instruction. -/
theorem exec_induction {P : State → Prop} {i : Instr} {s t : State}
    (hraise : ∀ k u, P u → P (raise k u))
    (hout : ∀ v u, (∃ x, i = .print x) → P u → P (u.send (.out v)))
    (hpop : ∀ u, P u → u.cfg.stackStart < u.sp → u.sp - 1 < u.cfg.n → P (u.withSp (u.sp - 1)))
    (hpush : ∀ v u, P u → u.sp < u.cfg.stackStart + u.cfg.stackSize → u.sp < u.cfg.n →
      P ((u.withMem (u.mem.write u.sp v)).withSp (u.sp + 1)))
    (hhalt : (∃ x, i = .halt x) → P s → P (s.withRunState .halted))
    (hs : P s) (h : exec i s = .next t) : P t := by
  have popThen : ∀ {u w : State} {rest : Word → State → Result State}, P u →
      (∀ v u', P u' → rest v u' = .next w → P w) → withPop u rest = .next w → P w := by
    intro u w rest hu hrest hw
    rcases withPop_cases hw with ⟨h1, h2, h3⟩ | ⟨-, -, rfl⟩ | ⟨-, -, h3⟩
    · exact hrest _ _ (hpop u hu h1 h2) h3
    · exact hraise _ _ hu
    · exact hrest _ _ (hraise _ _ hu) h3
  have pushLast : ∀ {u w : State} {v : Word}, P u → pushResult v u = .next w → P w := by
    intro u w v hu hw
    rcases pushResult_cases hw with ⟨h1, h2, rfl⟩ | ⟨-, rfl⟩
    · exact hpush _ _ hu h1 h2
    · exact hraise _ _ hu
  have done : ∀ {u w : State}, P u → Host.Outcome.next u = (.next w : Result State) → P w := by
    rintro u w hu hw
    obtain rfl : u = w := by simpa using hw
    exact hu
  have twoPops : ∀ {u w : State} {rest : Word → Word → State → Result State}, P u →
      (∀ a b u', P u' → rest a b u' = .next w → P w) → withTwoPops u rest = .next w → P w :=
    fun hu hrest hw => popThen hu (fun _ _ hu' => popThen hu' fun _ _ hu'' => hrest _ _ _ hu'') hw
  cases i with
  | halt x => exact done (hhalt ⟨x, rfl⟩ hs) h
  | push => exact pushLast hs h
  | pop => exact popThen hs (fun _ _ hu => done hu) h
  | add =>
    simp only [exec, execAdd] at h
    exact twoPops hs (fun _ _ _ hu => pushLast hu) h
  | sub =>
    simp only [exec, execSub] at h
    exact twoPops hs (fun _ _ _ hu => pushLast hu) h
  | mul =>
    simp only [exec, execMul] at h
    exact twoPops hs (fun _ _ _ hu => pushLast hu) h
  | div =>
    simp only [exec, execDiv] at h
    refine twoPops hs (fun a b u hu hw => ?_) h
    split at hw
    · exact done (hraise _ _ hu) hw
    · exact pushLast hu hw
  | print x => exact popThen hs (fun v _ hu => done (hout v _ ⟨x, rfl⟩ hu)) h
  | nop => exact done hs h
  | load | store | mov | jmp | jz | jnz | call | ret | read => exact done (hraise _ _ hs) h

/-! ### The step -/

/-- All a fetch can do when it answers. -/
theorem fetch_cases {s t : State} {w : Word} (h : fetch s = .next (w, t)) :
    (s.pc < s.cfg.n ∧ w = s.wordAt s.pc ∧ t = s.withPc (s.pc + 1)) ∨
    (s.cfg.n ≤ s.pc ∧ w = haltWord s.cfg.opcodeMap ∧ t = raise .programBounds s) := by
  unfold fetch at h
  split at h
  · obtain ⟨v, hr, h⟩ := andThen_eq_next.mp h
    obtain ⟨-, rfl⟩ := memRead_eq_next.mp hr
    simp only [Host.Outcome.next.injEq, Prod.mk.injEq] at h
    exact .inl ⟨‹_›, h.1.symm, h.2.symm⟩
  · simp only [Host.Outcome.next.injEq, Prod.mk.injEq] at h
    exact .inr ⟨by omega, h.1.symm, h.2.symm⟩

theorem step_of_running {s : State} (h : s.runState = .running) : step s = runStep s := by
  simp [step, State.running, h]

theorem step_of_not_running {s : State} (h : s.runState ≠ .running) : step s = waitStep s := by
  simp [step, State.running, h]

/-- A fetch inside memory, then the word's rule. -/
theorem runStep_of_lt {s : State} (h : s.pc < s.cfg.n) :
    runStep s = execute (s.wordAt s.pc) (s.withPc (s.pc + 1)) := by
  simp [runStep, fetch, memRead, h]

/-- The HALT word decodes to HALT under every opcode map, since HALT is the first name tested. -/
theorem decode_haltWord (m : OpcodeMap) : decode m (haltWord m) = .instr (.halt 0) := by
  have h1 : opcodeField (haltWord m) = m.halt := opcodeField_packWord _ _
  have h2 : operandField (haltWord m) = 0 := operandField_packWord _ _
  have h3 : nameOf m m.halt = some .halt := by simp [nameOf, OpName.all, OpcodeMap.code]
  simp only [decode, h1, h2, h3, OpName.instr]

/-- All a step of a run can do: run the word at PC, or take the fetch fault. -/
theorem runStep_cases {s t : State} (h : runStep s = .next t) :
    (s.pc < s.cfg.n ∧ execute (s.wordAt s.pc) (s.withPc (s.pc + 1)) = .next t) ∨
    (s.cfg.n ≤ s.pc ∧ t = raise .programBounds s) := by
  obtain ⟨⟨w, u⟩, hf, h⟩ := andThen_eq_next.mp h
  rcases fetch_cases hf with ⟨h1, rfl, rfl⟩ | ⟨h1, rfl, rfl⟩
  · exact .inl ⟨h1, h⟩
  · simp only [execute, raise_cfg, decode_haltWord, exec, execHalt,
      Host.Outcome.next.injEq] at h
    refine .inr ⟨h1, h ▸ ?_⟩
    rw [raise_eq]
    rfl

/-- What a word does when executed, some instruction does: the unknown opcode does what LOAD does. -/
theorem exists_exec_of_execute {w : Word} {s t : State} (h : execute w s = .next t) :
    ∃ i, exec i s = .next t := by
  unfold execute at h
  split at h
  · exact ⟨_, h⟩
  · exact ⟨.load 0, h⟩

theorem diagKinds_append (x y : List Event) : diagKinds (x ++ y) = diagKinds x ++ diagKinds y := by
  induction x with
  | nil => rfl
  | cons e x ih => cases e <;> simp [diagKinds, ih]

theorem outValues_append (x y : List Event) : outValues (x ++ y) = outValues x ++ outValues y := by
  induction x with
  | nil => rfl
  | cons e x ih => cases e <;> simp [outValues, ih]

/-- The memory right after reset lists nothing, so it has the canonical form. -/
theorem reset_mem_wf : State.reset.mem.wf = true := rfl

end Sys2Proof.Machine
end

