-- ==== Sys2Proof/Laws/PerInstr.lean ====
section
/-! SUPPORT. For each instruction: its word carries its name's opcode and its operand field
(30_encoding.md R92). -/

namespace Sys2Proof.Laws.EncodeFields

/-- The two fields of an instruction's word, under every opcode map. -/
def Statement (i : Instr) : Prop :=
  ∀ m : OpcodeMap, opcodeField (encode m i) = m.code i.name ∧ operandField (encode m i) = i.operand

theorem halt (x : Operand) : Statement (.halt x) := fun _ =>
  ⟨opcodeField_packWord _ _, operandField_packWord _ _⟩

theorem push (x : Operand) : Statement (.push x) := fun _ =>
  ⟨opcodeField_packWord _ _, operandField_packWord _ _⟩

theorem pop (x : Operand) : Statement (.pop x) := fun _ =>
  ⟨opcodeField_packWord _ _, operandField_packWord _ _⟩

theorem add (x : Operand) : Statement (.add x) := fun _ =>
  ⟨opcodeField_packWord _ _, operandField_packWord _ _⟩

theorem sub (x : Operand) : Statement (.sub x) := fun _ =>
  ⟨opcodeField_packWord _ _, operandField_packWord _ _⟩

theorem mul (x : Operand) : Statement (.mul x) := fun _ =>
  ⟨opcodeField_packWord _ _, operandField_packWord _ _⟩

theorem div (x : Operand) : Statement (.div x) := fun _ =>
  ⟨opcodeField_packWord _ _, operandField_packWord _ _⟩

theorem print (x : Operand) : Statement (.print x) := fun _ =>
  ⟨opcodeField_packWord _ _, operandField_packWord _ _⟩

theorem nop (x : Operand) : Statement (.nop x) := fun _ =>
  ⟨opcodeField_packWord _ _, operandField_packWord _ _⟩

theorem load (x : Operand) : Statement (.load x) := fun _ =>
  ⟨opcodeField_packWord _ _, operandField_packWord _ _⟩

theorem store (x : Operand) : Statement (.store x) := fun _ =>
  ⟨opcodeField_packWord _ _, operandField_packWord _ _⟩

theorem mov (x : Operand) : Statement (.mov x) := fun _ =>
  ⟨opcodeField_packWord _ _, operandField_packWord _ _⟩

theorem jmp (x : Operand) : Statement (.jmp x) := fun _ =>
  ⟨opcodeField_packWord _ _, operandField_packWord _ _⟩

theorem jz (x : Operand) : Statement (.jz x) := fun _ =>
  ⟨opcodeField_packWord _ _, operandField_packWord _ _⟩

theorem jnz (x : Operand) : Statement (.jnz x) := fun _ =>
  ⟨opcodeField_packWord _ _, operandField_packWord _ _⟩

theorem call (x : Operand) : Statement (.call x) := fun _ =>
  ⟨opcodeField_packWord _ _, operandField_packWord _ _⟩

theorem ret (x : Operand) : Statement (.ret x) := fun _ =>
  ⟨opcodeField_packWord _ _, operandField_packWord _ _⟩

theorem read (x : Operand) : Statement (.read x) := fun _ =>
  ⟨opcodeField_packWord _ _, operandField_packWord _ _⟩

end Sys2Proof.Laws.EncodeFields
end

