-- ==== Sys2Proof/Tests/Slice0.lean ====
section
/-! SUPPORT. Tests on small states: the checks of WellFormed, words written out from the spec's
encodings, one step of each instruction with results from 95_test_vectors.md, and for each statement
with hypotheses a state that meets them (witness_…). -/

namespace Sys2Proof.Tests

open Sys2Proof.Machine

/-- Words at successive addresses. -/
def cells (i : Nat) : List Word → Memory
  | [] => []
  | w :: ws => (i, w) :: cells (i + 1) ws

/-- A default core, Running, with these words on its stack, bottom first. -/
def core (stack : List Word) : State :=
  { State.reset with sp := 768 + stack.length, mem := cells 768 stack, runState := .running }

/-- The same core under Continue. -/
def coreC (stack : List Word) : State := (core stack).withPopFaultMode .continues

/-- A Running default core whose word at PC 0 is the given one. -/
def fetching (w : Word) : State := { core [] with mem := [(0, w)] }

/-- The next state of an outcome, if it has one. -/
def after : Result State → Option State
  | .next s => some s
  | _ => none

/-- What a test looks at: SP, one word of memory if written, events, FAULT. -/
def look (i : Nat) (r : Result State) : Option (Nat × Option Word × List Event × BitVec 3) :=
  (after r).map fun s => (s.sp, s.mem.read? i, s.events, s.fault)

/-- The small configuration of 95_test_vectors.md P2. -/
def smallConfig : Config := { defaultConfig with n := 8, stackSize := 2, dataStart := 4 }

/-! ### WellFormed refuses -/

theorem test_default_config_wf : defaultConfig.wf = true := by decide
theorem test_small_config_wf : smallConfig.wf = true := by decide
theorem test_wf_refuses_no_memory :
    ({ defaultConfig with n := 0, stackSize := 1, dataStart := 0 } : Config).wf = false := by decide
theorem test_wf_refuses_too_much_memory :
    ({ defaultConfig with n := 2 ^ 32 } : Config).wf = false := by decide
theorem test_wf_refuses_no_stack : ({ defaultConfig with stackSize := 0 } : Config).wf = false := by
  decide
theorem test_wf_refuses_stack_beyond_memory :
    ({ defaultConfig with stackSize := 1025, dataStart := 0 } : Config).wf = false := by decide
theorem test_wf_refuses_data_beyond_stack :
    ({ defaultConfig with dataStart := 769 } : Config).wf = false := by decide
theorem test_wf_refuses_shared_opcode :
    ({ defaultOpcodeMap with nop := 0x07 } : OpcodeMap).wf = false := by decide
theorem test_wf_refuses_99 : ({ defaultOpcodeMap with read := 99 } : OpcodeMap).wf = false := by
  decide
theorem test_wf_refuses_opcode_256 : opcodeInRange 256 = false := by decide
theorem test_wf_refuses_operand_of_25_bits : operandInRange 0x1000000 = false := by decide
theorem test_canonical_refuses_operand : (Instr.add 1).canonical = false := by decide
theorem test_asm_refuses_push_without_operand : (AsmItem.op .push none).wf = false := by decide
theorem test_asm_refuses_push_beyond_range : (AsmItem.op .push (some 16777216)).wf = false := by
  decide
theorem test_asm_refuses_operand_of_add : (AsmItem.op .add (some 0)).wf = false := by decide
theorem test_asm_allows_raw_word : (AsmItem.word 0x63).wf = true := by decide

/-! ### Words written out from 30_encoding.md R100 and 44_reserved.md -/

theorem test_decode_halt : decode defaultOpcodeMap 0xABCDEF00 = .instr (.halt 0xABCDEF) := by decide
theorem test_decode_push : decode defaultOpcodeMap 0x00000A01 = .instr (.push 10) := by decide
theorem test_decode_push_all_bits :
    decode defaultOpcodeMap 0b11111111111111111111111100000001 = .instr (.push 0xFFFFFF) := by decide
theorem test_decode_pop : decode defaultOpcodeMap 0x12345602 = .instr (.pop 0x123456) := by decide
theorem test_decode_add : decode defaultOpcodeMap 0x00000003 = .instr (.add 0) := by decide
theorem test_decode_sub : decode defaultOpcodeMap 0x00000004 = .instr (.sub 0) := by decide
theorem test_decode_mul : decode defaultOpcodeMap 0x00000005 = .instr (.mul 0) := by decide
theorem test_decode_div : decode defaultOpcodeMap 0x00000006 = .instr (.div 0) := by decide
theorem test_decode_print : decode defaultOpcodeMap 0x00000007 = .instr (.print 0) := by decide
theorem test_decode_nop : decode defaultOpcodeMap 0x00000508 = .instr (.nop 5) := by decide
theorem test_decode_load : decode defaultOpcodeMap 0x00000009 = .instr (.load 0) := by decide
theorem test_decode_store : decode defaultOpcodeMap 0x0000010A = .instr (.store 1) := by decide
theorem test_decode_mov : decode defaultOpcodeMap 0x0000000B = .instr (.mov 0) := by decide
theorem test_decode_jmp : decode defaultOpcodeMap 0x0000050C = .instr (.jmp 5) := by decide
theorem test_decode_jz : decode defaultOpcodeMap 0x0000000D = .instr (.jz 0) := by decide
theorem test_decode_jnz : decode defaultOpcodeMap 0x0000000E = .instr (.jnz 0) := by decide
theorem test_decode_call : decode defaultOpcodeMap 0x0000000F = .instr (.call 0) := by decide
theorem test_decode_ret : decode defaultOpcodeMap 0x00000010 = .instr (.ret 0) := by decide
theorem test_decode_read : decode defaultOpcodeMap 0x00000011 = .instr (.read 0) := by decide
theorem test_decode_undefined_99 : decode defaultOpcodeMap 0x00000063 = .undefinedOpcode 99 := by
  decide
theorem test_decode_undefined_last :
    decode defaultOpcodeMap 0xFFFFFFFF = .undefinedOpcode 0xFF := by decide

-- T-E1 to T-E4, T-E10
theorem test_encode_push : encodeFields 0x01 10 = some 0x00000A01 := by decide
theorem test_encode_all_bits : encodeFields 0x01 0xFFFFFF = some 0xFFFFFF01 := by decide
theorem test_encode_masks : encodeFields 0x01 0x1000005 = some 0x00000501 := by decide
theorem test_encode_refuses : encodeFields 0x100 0 = none := by decide
theorem test_encode_decode : encodeFields 0x21 0x876543 = some 0x87654321 := by decide
theorem test_decodeFields : decodeFields 0x87654321 = (0x21, 0x876543) := by decide
theorem test_encode_instr : encode defaultOpcodeMap (.push 10) = 0x00000A01 := by decide
theorem test_haltWord : haltWord defaultOpcodeMap = 0 := by decide
theorem test_assemble : assemble defaultOpcodeMap (.op .push (some 20)) = some 0x00001401 := by decide
theorem test_decodeTableWord : decodeTableWord 32 0x1401 = some (.push 20) := by decide

/-! ### Every row of the table runs as the first instruction after reset -/

theorem test_every_row_runs : (List.range 18).all (fun w =>
    (after (step (State.reset.withFetchWord 32 w))).isSome) = true := by decide

theorem test_first_step_push : (after (step (State.reset.withFetchWord 32 0xA01))).map
    (fun s => (s.pc, s.sp, s.mem)) = some (1, 769, [(0, 0xA01), (768, 10)]) := by decide

/-! ### One step of each instruction (95_test_vectors.md, L2) -/

-- T-H1, T-H2
theorem test_halt : (after (step (fetching 0x12345600))).map
    (fun s => (s.pc, s.runState, s.fault, s.events)) = some (1, .halted, 0, []) := by decide
theorem test_nop : after (step (fetching 8)) = some { fetching 8 with pc := 1 } := by decide
-- T-S1, T-S2, W6
theorem test_push_largest : look 768 (exec (.push 16777215) (core [])) =
    some (769, some 16777215, [], 0) := by decide
theorem test_push_overflow : look 8 (exec (.push 3)
    { State.init smallConfig with sp := 8, mem := [(6, 1), (7, 2)] }) =
    some (8, none, [.diag .stackOverflow], 2) := by decide
-- T-S3, T-S4
theorem test_pop : look 768 (exec (.pop 0) (core [4])) = some (768, some 4, [], 0) := by decide
theorem test_pop_empty : look 768 (exec (.pop 0) (core [])) =
    some (768, none, [.diag .stackUnderflow], 3) := by decide
-- T-A2 and the wrap below it, T-A12, T-A13
theorem test_add_wraps : look 768 (exec (.add 0) (core [0xFFFFFFFE, 3])) =
    some (769, some 1, [], 0) := by decide
theorem test_add_empty_continue : look 768 (exec (.add 0) (coreC [])) =
    some (769, some 0, [.diag .stackUnderflow, .diag .stackUnderflow], 3) := by decide
-- T-A3, T-A14
theorem test_sub_order : look 768 (exec (.sub 0) (core [3, 5])) =
    some (769, some 0xFFFFFFFE, [], 0) := by decide
theorem test_sub_short_continue : look 768 (exec (.sub 0) (coreC [7])) =
    some (769, some 0xFFFFFFF9, [.diag .stackUnderflow], 3) := by decide
-- T-A6, T-A16
theorem test_mul_wraps : look 768 (exec (.mul 0) (core [16777215, 16777215])) =
    some (769, some 4261412865, [], 0) := by decide
theorem test_mul_short_abort : look 768 (exec (.mul 0) (core [7])) =
    some (768, some 7, [.diag .stackUnderflow], 3) := by decide
-- P1/P3 (unsigned), T-A11
theorem test_div_unsigned : look 768 (exec (.div 0) (core [0xFFFFFFFE, 2])) =
    some (769, some 0x7FFFFFFF, [], 0) := by decide
theorem test_div_by_zero : look 768 (exec (.div 0) (core [5, 0])) =
    some (768, some 5, [.diag .divideByZero], 4) := by decide
-- T-A19, T-A18
theorem test_div_empty_continue : look 768 (exec (.div 0) (coreC [])) =
    some (768, none, [.diag .stackUnderflow, .diag .stackUnderflow, .diag .divideByZero], 3) := by
  decide
theorem test_div_zero_short_continue : look 768 (exec (.div 0) (coreC [0])) =
    some (768, some 0, [.diag .stackUnderflow, .diag .divideByZero], 3) := by decide
-- T-H6, T-H5
theorem test_print : look 768 (exec (.print 0) (core [0xFFFFFFFE])) =
    some (768, some 0xFFFFFFFE, [.out 4294967294], 0) := by decide
theorem test_print_empty_continue : look 768 (exec (.print 0) (coreC [])) =
    some (768, none, [.diag .stackUnderflow, .out 0], 3) := by decide
-- T-R1 to T-R9
theorem test_reserved : ([.load 0, .store 0, .mov 0, .jmp 5, .jz 0, .jnz 0, .call 0, .ret 0,
    .read 0].map fun i => look 768 (exec i (core [9]))) =
    List.replicate 9 (some (769, some 9, [.diag .unknownOpcode], 5)) := by decide
-- T-R11, T-L2
theorem test_undefined : (after (step (fetching 0x63))).map (fun s => (s.pc, s.fault)) =
    some (1, 5) := by decide
theorem test_fetch_past_end : (after (step { core [] with pc := 1024 })).map
    (fun s => (s.pc, s.fault, s.events, s.runState)) =
    some (1024, 1, [.diag .programBounds], .halted) := by decide
-- The "Output: 4294967294" line of T-H6
theorem test_output_line : outputLine 4294967294 =
    ['O', 'u', 't', 'p', 'u', 't', ':', ' ', '4', '2', '9', '4', '9', '6', '7', '2', '9', '4',
     Char.ofNat 10] := by decide
theorem test_output_zero : outputLine 0 =
    ['O', 'u', 't', 'p', 'u', 't', ':', ' ', '0', Char.ofNat 10] := by decide

/-! ### Commands (T-M2, T-X1, T-D1, and the refusals of 00_scope.md R14) -/

theorem test_load_keeps_tail : (after (command (.load [0x701])
    { State.reset with mem := [(0, 0x101), (1, 0x201)] })).map (·.mem) =
    some [(0, 0x701), (1, 0x201)] := by decide
theorem test_load_drops_tail : (after (command (.load [1, 2, 3, 4, 5]) (State.init smallConfig))).map
    (·.mem) = some [(0, 1), (1, 2), (2, 3), (3, 4)] := by decide
theorem test_run_full_reset : (after (command .run
    { core [1] with runState := .halted, pc := 2, fault := 3 })).map
    (fun s => (s.pc, s.sp, s.fault, s.runState)) = some (0, 768, 0, .running) := by decide
theorem test_run_carry_over : (after (command .run
    { core [1] with
      runState := .halted, cfg := { defaultConfig with restartPolicy := .carryOver } })).map
    (·.sp) = some 769 := by decide
theorem test_load_while_running : after (command (.load []) (core [])) = none := by decide
theorem test_wait_takes_command : (after (step { State.reset with inbox := [.run, .dump] })).map
    (fun s => (s.runState, s.inbox)) = some (.running, [.dump]) := by decide
theorem test_dump_last_ten : dump (core [1, 2, 3, 4, 5, 6, 7, 8, 9, 10, 11, 12]) =
    .next ⟨0, 780, 0, 0, 0, [3, 4, 5, 6, 7, 8, 9, 10, 11, 12]⟩ := rfl
theorem test_dump_fresh : dump State.reset = .next ⟨0, 768, 0, 0, 0, []⟩ := rfl
theorem test_construct_default : after (construct none none none defaultConfig) =
    some State.reset := by decide
theorem test_construct_refuses : after (construct (some 100) none none defaultConfig) = none := by
  decide

/-! ### Witnesses: a state and operands that meet each statement's hypotheses -/

theorem witness_map_wf : defaultOpcodeMap.wf = true := by decide

/-- CodecRoundTripsInBothDirections, EncodePacksMasksAndRefuses: at the ends of both ranges. -/
theorem witness_codec_ranges : 255 ≤ 255 ∧ 255 < 256 ∧ 2 ^ 24 - 1 < 2 ^ 24 := by decide

/-- EncodeOfDecodeIsTheWord. -/
theorem witness_decode_instr : decode defaultOpcodeMap 0x12345602 = .instr (.pop 0x123456) := by
  decide

/-- NotationAssemblesToWhatItSays: the last operand in range, the first out of it, a name that is not
PUSH. -/
theorem witness_notation : 16777215 ≤ 16777215 ∧ 16777215 < 16777216 ∧ OpName.add ≠ .push := by decide

/-- OnlyPushReadsItsOperandField. -/
theorem witness_not_push : OpName.jmp ≠ .push := by decide

/-- PushWritesTheImmediateOrOverflows: the last free word, and a full stack. -/
theorem witness_push : (core []).cfg.sizesWf = true ∧ { core [] with sp := 1023 }.sp < 1024 ∧
    { core [] with sp := 1024 }.sp = (core []).cfg.n := by decide

/-- PopDropsTheTopOrUnderflows, PrintSendsTheTopOrUnderflows, DumpReturnsTheLastTenStackWords: one word
and none, under both values of POP_FAULT_MODE. -/
theorem witness_pop : (core [4]).cfg.sizesWf = true ∧ SpInRange (core [4]) ∧
    (core [4]).cfg.stackStart < (core [4]).sp ∧ SpInRange (core []) ∧
    (core []).sp = (core []).cfg.stackStart ∧ (core []).cfg.popFaultMode = .abort ∧
    SpInRange (coreC []) ∧ (coreC []).sp = (coreC []).cfg.stackStart ∧
    (coreC []).cfg.popFaultMode = .continues := by decide

/-- AddSubMulReplaceTheTopTwoWords, DivReplacesTheTopTwoWordsOrFaults,
ArithmeticFaultsOnlyByDivideByZero: exactly two words, with a divisor other than 0 and with 0. -/
theorem witness_two_words : (core [20, 5]).cfg.sizesWf = true ∧
    (core [20, 5]).cfg.stackStart + 2 ≤ (core [20, 5]).sp ∧ (core [20, 5]).sp ≤ (core [20, 5]).cfg.n ∧
    ((core [20, 5]).wordAt 769).toNat ≠ 0 ∧
    (core [5, 0]).cfg.stackStart + 2 ≤ (core [5, 0]).sp ∧ (core [5, 0]).sp ≤ (core [5, 0]).cfg.n ∧
    ((core [5, 0]).wordAt 769).toNat = 0 := by decide

/-- ShortStackArithmeticUnderAbort: one word and none. -/
theorem witness_short_abort : (core [7]).cfg.sizesWf = true ∧ (core [7]).cfg.popFaultMode = .abort ∧
    (core [7]).sp = (core [7]).cfg.stackStart + 1 ∧ (core []).sp = (core []).cfg.stackStart ∧
    Instr.div 0 ∈ [Instr.add 0, .sub 0, .mul 0, .div 0] := by decide

/-- ShortStackArithmeticUnderContinue: one word that is not 0, one that is 0, and none. -/
theorem witness_short_continue : (coreC [7]).cfg.sizesWf = true ∧
    (coreC [7]).cfg.popFaultMode = .continues ∧ (coreC [7]).sp = (coreC [7]).cfg.stackStart + 1 ∧
    ((coreC [7]).wordAt 768).toNat ≠ 0 ∧ ((coreC [0]).wordAt 768).toNat = 0 ∧
    (coreC []).sp = (coreC []).cfg.stackStart := by decide

/-- NonStoringInstructionsFrame, and a PRINT that sends. -/
theorem witness_non_storing : ∃ t, exec (.print 0) (core [4]) = .next t ∧ t.sp = 768 :=
  ⟨_, rfl, rfl⟩

/-- PushFrame: a push that stores, and one that overflows. -/
theorem witness_push_frame : (∃ t, exec (.push 5) (core []) = .next t ∧ t.sp = 769) ∧
    ∃ t, exec (.push 5) { core [] with sp := 1024 } = .next t ∧ t.sp = 1024 :=
  ⟨⟨_, rfl, rfl⟩, ⟨_, rfl, rfl⟩⟩

/-- ArithmeticFrame, with its two pops. -/
theorem witness_arithmetic_frame : (∃ t, exec (.sub 0) (core [20, 5]) = .next t ∧ t.sp = 769) ∧
    ∃ s1 s2, pop (core [20, 5]) = .next (5, .ok, s1) ∧ pop s1 = .next (20, .ok, s2) ∧ s2.sp = 768 :=
  ⟨⟨_, rfl, rfl⟩, ⟨_, _, rfl, rfl, rfl⟩⟩

/-- InstructionsNeverWritePc, ConfigurationNeverChanges, OutputIsSentInOrderByPrintAlone: an
instruction, a command and a step that answer. -/
theorem witness_next : (∃ t, exec (.halt 0) (core []) = .next t ∧ t.runState = .halted) ∧
    (∃ t, command .run State.reset = .next t ∧ t.runState = .running) ∧
    ∃ t, step (fetching 8) = .next t ∧ t.pc = 1 := ⟨⟨_, rfl, rfl⟩, ⟨_, rfl, rfl⟩, ⟨_, rfl, rfl⟩⟩

/-- StepRunsTheDecodedInstruction: a declared opcode and an undefined one. -/
theorem witness_step : (fetching 0xA01).runState = .running ∧ (fetching 0xA01).pc < 1024 ∧
    decode (fetching 0xA01).cfg.opcodeMap ((fetching 0xA01).wordAt 0) = .instr (.push 10) ∧
    decode (fetching 0x12).cfg.opcodeMap ((fetching 0x12).wordAt 0) = .undefinedOpcode 0x12 := by decide

/-- ExecuteRunsTheRuleOfTheClass: the last implemented value, the first reserved and the first
undefined one. -/
theorem witness_classes : classify (core []).cfg.opcodeMap (opcodeField 0x08) = some .nop ∧
    classify (core []).cfg.opcodeMap (opcodeField 0x09) = none ∧
    classify (core []).cfg.opcodeMap (opcodeField 0x12) = none := by decide

/-- FetchPastTheEndTakesProgramBoundsFault. -/
theorem witness_fetch_past_end : { core [] with pc := 1024 }.runState = .running ∧
    (core []).cfg.n ≤ { core [] with pc := 1024 }.pc := by decide

/-- ReservedOpcodeValuesDoNotMatter: a map that differs from the default in a reserved name. -/
theorem witness_reserved_values :
    (∀ n ∈ OpName.implemented, ({ defaultOpcodeMap with jmp := 200 } : OpcodeMap).code n =
      (core []).cfg.opcodeMap.code n) ∧ ({ defaultOpcodeMap with jmp := 200 } : OpcodeMap) ≠
      defaultOpcodeMap := by decide

/-- PopFaultModesAgreeOnTheFault: both outcomes exist where a pop fails and where the run goes on. -/
theorem witness_pop_fault_modes :
    (∃ t u, exec (.sub 0) ((core [7]).withPopFaultMode .abort) = .next t ∧
      exec (.sub 0) ((core [7]).withPopFaultMode .continues) = .next u ∧ t.sp = 768 ∧ u.sp = 769) ∧
    ∃ t, exec (.sub 0) ((core [7, 2]).withPopFaultMode .abort) = .next t ∧ t.runState = .running :=
  ⟨⟨_, _, rfl, rfl, rfl, rfl⟩, ⟨_, rfl, rfl⟩⟩

/-- FaultsOfOneStepAreFew: a step with three faults under Continue, and one with one under Abort. -/
theorem witness_faults : (coreC []).runState = .running ∧
    (after (step { coreC [] with mem := [(0, 6)] })).map (·.events.length) = some 3 ∧
    { core [] with mem := [(0, 6)] }.cfg.popFaultMode = .abort ∧
    (after (step { core [] with mem := [(0, 6)] })).map (·.events.length) = some 1 := by decide

/-- StepNumberIsTheAddressFetched: still Running after one step of the run. -/
theorem witness_step_number : ∃ s1 t, startRun { State.reset with mem := [(0, 8)] } = .next s1 ∧
    loop 1 s1 = .next t ∧ t.runState = .running := ⟨_, _, rfl, rfl, rfl⟩

/-- EveryRunHaltsWithinNPlusOneSteps. -/
theorem witness_run : State.reset.Inv ∧ State.reset.runState ≠ .running := by decide

/-- RunReturnsItsFirstFault: a run that halts at its first word. -/
theorem witness_run_returns : ∃ t, runProgram { State.reset with mem := [(0, 0x63)] } =
    .next (t, 5) := ⟨_, rfl⟩

/-- FetchSeesThePushedWord: PUSH 7 at the word below the stack region. -/
theorem witness_fetch_sees_push :
    let s : State := { core [] with pc := 767, mem := [(767, 0x701)] }
    s.cfg.sizesWf = true ∧ s.runState = .running ∧ s.sp = s.pc + 1 ∧ s.sp < s.cfg.n ∧
      decode s.cfg.opcodeMap (s.wordAt s.pc) = .instr (.push 7) := by decide

/-- PushThenPrintSendsTheImmediate. -/
theorem witness_push_print : (core []).cfg.sizesWf = true ∧ SpInRange (core []) ∧
    (core []).sp < (core []).cfg.n := by decide

/-- HaltedIsLeftByRunAlone, LoadCopiesIntoTheCodeRegion, WaitingCoreTakesTheNextCommand,
RunStartsAtTheEntryPoint: a Halted core, without and with a command, under both policies. -/
theorem witness_halted :
    let s : State := { core [] with runState := .halted }
    s.runState = .halted ∧ s.runState ≠ .running ∧ s.cfg.sizesWf = true ∧ s.inbox = [] ∧
      { s with inbox := [.run] }.inbox = Command.run :: [] ∧ s.cfg.restartPolicy = .fullReset ∧
      { s with cfg := { s.cfg with restartPolicy := .carryOver } }.cfg.restartPolicy = .carryOver := by
  decide

/-- LoadCopiesIntoTheCodeRegion: a list longer than the code region, its last copied word and its first
dropped one. -/
theorem witness_load : 3 < [1#32, 2, 3, 4, 5].length ∧ 3 < (State.init smallConfig).cfg.codeSize ∧
    min [1#32, 2, 3, 4, 5].length (State.init smallConfig).cfg.codeSize ≤ 4 := by decide

/-- LoadAndRunAreRefusedWhileRunning. -/
theorem witness_running : (core []).runState = .running := by decide

/-- ConstructMakesAFreshCore: sizes accepted at the edges (one word of memory, all of it stack), and
refused. -/
theorem witness_construct : (defaultConfig.opcodeMap.wf = true) ∧
    (1 ≤ (some 1).getD 1024 ∧ (some 1).getD 1024 ≤ 2 ^ 32 - 1 ∧ 1 ≤ (some 1).getD 256 ∧
      (some 1).getD 256 ≤ (some 1).getD 1024 ∧ (some 0).getD 512 ≤ (some 1).getD 1024 - (some 1).getD 256) ∧
    ¬(1 ≤ (some 0).getD 1024) := by decide

/-- EveryConstructedCoreMeetsTheInvariant. -/
theorem witness_constructed : ∃ s, construct (some 8) (some 2) (some 4) defaultConfig = .next s ∧
    s.sp = 6 := ⟨_, rfl, rfl⟩

/-- StepKeepsTheInvariant, StepNeverStopsUnderTheInvariant, FaultHoldsALegalCode,
StepsWriteOnlyTheirOwnRegion: a Running core about to push, and a core with a LOAD waiting. -/
theorem witness_invariant : (fetching 0xA01).Inv ∧ (after (step (fetching 0xA01))).isSome = true ∧
    { State.reset with inbox := [.load [8]] }.Inv ∧
    (after (step { State.reset with inbox := [.load [8]] })).isSome = true ∧
    (core [1, 2]).Inv ∧ (core []).cfg.codeSize ≤ 512 ∧ 512 < (core []).cfg.stackStart := by decide

end Sys2Proof.Tests
end

section
/-! SUPPORT. The configuration is fixed for the life of the core (00_scope.md R8): instructions,
commands and steps each keep it. -/

namespace Sys2Proof.Machine

/-- All a core in Idle or Halted can do: nothing, or the next command of the host. -/
theorem waitStep_cases {s t : State} (h : waitStep s = .next t) :
    (s.inbox = [] ∧ t = s) ∨
    ∃ c rest, s.inbox = c :: rest ∧ command c (s.withInbox rest) = .next t := by
  unfold waitStep at h
  split at h
  · exact .inl ⟨‹_›, (Host.Outcome.next.inj h).symm⟩
  · exact .inr ⟨_, _, ‹_›, h⟩

/-- No part of an instruction touches the configuration, so no instruction does. -/
theorem exec_cfg {i : Instr} {s t : State} (h : exec i s = .next t) : t.cfg = s.cfg := by
  refine exec_induction (P := fun u => u.cfg = s.cfg) ?fault ?out ?pop ?push ?halt rfl h
  case fault => exact fun k u hu => (raise_cfg k u).trans hu
  case out => exact fun _ _ _ hu => hu
  case pop => exact fun _ hu _ _ => hu
  case push => exact fun _ _ hu _ _ => hu
  case halt => exact fun _ hs => hs

theorem execute_cfg {w : Word} {s t : State} (h : execute w s = .next t) : t.cfg = s.cfg := by
  obtain ⟨i, hi⟩ := exists_exec_of_execute h
  exact exec_cfg hi

theorem command_cfg {c : Command} {s t : State} (h : command c s = .next t) : t.cfg = s.cfg := by
  cases c with
  | load words =>
    obtain ⟨-, m, rfl⟩ := loadProgram_cases h
    exact State.withMem_cfg s m
  | run =>
    obtain ⟨-, rfl⟩ := startRun_cases h
    exact resetForRun_cfg s
  | dump =>
    obtain rfl := Host.Outcome.next.inj h
    rfl

/-- A step of a run fetches, which moves PC or takes a fault, and executes. -/
theorem runStep_cfg {s t : State} (h : runStep s = .next t) : t.cfg = s.cfg := by
  rcases runStep_cases h with ⟨-, hexec⟩ | ⟨-, rfl⟩
  · exact (execute_cfg hexec).trans (State.withPc_cfg s _)
  · exact raise_cfg _ s

theorem waitStep_cfg {s t : State} (h : waitStep s = .next t) : t.cfg = s.cfg := by
  rcases waitStep_cases h with ⟨-, rfl⟩ | ⟨c, rest, -, hcommand⟩
  · rfl
  · exact (command_cfg hcommand).trans (State.withInbox_cfg s rest)

theorem step_cfg {s t : State} (h : step s = .next t) : t.cfg = s.cfg := by
  by_cases hr : s.runState = .running
  · exact runStep_cfg (step_of_running hr ▸ h)
  · exact waitStep_cfg (step_of_not_running hr ▸ h)

/-- Settles O26: instructions by the parts they are made of, commands one by one, and steps as
whichever of the two the run state calls for. -/
theorem configurationNeverChanges : Obligations.ConfigurationNeverChanges :=
  ⟨fun _ _ _ => exec_cfg, fun _ _ _ => command_cfg, fun _ _ => step_cfg⟩

end Sys2Proof.Machine
end

section
/-! SUPPORT. The host's LOAD (20_memory.md R75): the code region lies inside memory, so no word of the
list meets a missing address, and the copy is the model's `writeFrom` from address 0. -/

namespace Sys2Proof.Machine

theorem loadProgram_of_not_running {s : State} (hr : s.runState ≠ .running) (words : List Word) :
    loadProgram words s = writeFrom 0 (words.take s.cfg.codeSize) s :=
  if_neg (by simpa using hr)

/-- What fits into the code region fits into memory. -/
theorem length_take_codeSize_le {c : Config} (hc : c.sizesWf = true) (words : List Word) :
    (words.take c.codeSize).length ≤ c.n := by
  obtain ⟨-, hstack, hcode⟩ := stackStart_facts hc
  exact (List.length_take_le _ _).trans (hcode.trans hstack.le)

/-- `writeFrom` from address 0 as `wordAt` sees it: the words written, and every later word kept. -/
theorem writeFrom_zero_wordAt {ws : List Word} {s : State} (h : ws.length ≤ s.cfg.n) :
    ∃ m, writeFrom 0 ws s = .next (s.withMem m) ∧
      (∀ (i : Nat) (hi : i < ws.length), (s.withMem m).wordAt i = ws[i]) ∧
      ∀ i, ws.length ≤ i → (s.withMem m).wordAt i = s.wordAt i := by
  obtain ⟨m, hm, -, -, hkept, hwritten⟩ := writeFrom_spec ws 0 s (by omega)
  refine ⟨m, hm, fun i hi => ?written, fun i hi => ?kept⟩
  case written =>
    have hread : m.read? i = some ws[i] := by simpa using hwritten i hi
    simp [State.wordAt, hread]
  case kept =>
    have hread : m.read? i = s.mem.read? i := hkept i (.inr (by omega))
    simp [State.wordAt, hread]

/-- Settles O41: LOAD is `writeFrom` of the words that fit, whose number is the smaller of the list's
length and CODE_SIZE. -/
theorem loadCopiesIntoTheCodeRegion : Obligations.LoadCopiesIntoTheCodeRegion := by
  intro words s hc hr
  obtain ⟨m, hm, hwritten, hkept⟩ := writeFrom_zero_wordAt (length_take_codeSize_le hc words)
  refine ⟨s.withMem m, (loadProgram_of_not_running hr words).trans hm,
    fun i hi hcode => ?copied, fun i hi => hkept i ?beyond, rfl⟩
  case copied =>
    have hfits : i < (words.take s.cfg.codeSize).length := by
      simpa only [List.length_take] using lt_min hcode hi
    exact (hwritten i hfits).trans List.getElem_take
  case beyond => simpa only [List.length_take, min_comm] using hi

end Sys2Proof.Machine
end

section
/-! SUPPORT. The codec's reading side (30_encoding.md R91, R97): the two fields of a word as numbers, and
`classify` as the search for the implemented name that has a value. -/

namespace Sys2Proof

/-- Masking with 0xFF is the remainder modulo 2^8, which has the field's width. -/
theorem toNat_opcodeField (w : Word) : (opcodeField w).toNat = w.toNat % 2 ^ 8 := by
  have hmask : w.toNat &&& 255 = w.toNat % 2 ^ 8 := Nat.and_two_pow_sub_one_eq_mod w.toNat 8
  calc (opcodeField w).toNat = (w.toNat &&& 255) % 2 ^ 8 := by
        simp only [opcodeField, BitVec.toNat_setWidth, BitVec.toNat_and, BitVec.toNat_ofNat,
          Nat.reducePow, Nat.reduceMod]
    _ = w.toNat % 2 ^ 8 := by rw [hmask, Nat.mod_mod]

/-- Shifting right by 8 is the quotient by 2^8, which 24 bits hold because a word has 32. -/
theorem toNat_operandField (w : Word) : (operandField w).toNat = w.toNat / 2 ^ 8 := by
  have hfits : w.toNat / 2 ^ 8 < 2 ^ 24 := by have := w.isLt; omega
  simpa [operandField, Nat.shiftRight_eq_div_pow] using hfits

/-- Settles O1: the fields of `decodeFields` are the masked and the shifted word. -/
theorem decodeSplitsEveryWordIntoItsTwoFields : Obligations.DecodeSplitsEveryWordIntoItsTwoFields :=
  fun w => ⟨toNat_opcodeField w, toNat_operandField w⟩

theorem classify_eq_none_iff {m : OpcodeMap} {v : Opcode} :
    classify m v = none ↔ ∀ n ∈ OpName.implemented, m.code n ≠ v := by
  simp only [classify, List.find?_eq_none, decide_eq_true_eq, ne_eq]

/-- A name that `classify` finds is implemented and has the value, under every map. -/
theorem implemented_and_code_of_classify {m : OpcodeMap} {v : Opcode} {n : OpName}
    (h : classify m v = some n) : n ∈ OpName.implemented ∧ m.code n = v :=
  ⟨List.mem_of_find?_eq_some h, by simpa using List.find?_some h⟩

/-- Under a legal map the search order does not matter: an implemented name that has the value is the
one `classify` finds, since no two names share a value. -/
theorem classify_code {m : OpcodeMap} (hm : m.wf = true) {n : OpName} (hn : n ∈ OpName.implemented) :
    classify m (m.code n) = some n := by
  cases hfound : classify m (m.code n) with
  | none => exact absurd rfl (classify_eq_none_iff.mp hfound n hn)
  | some q =>
    obtain ⟨-, hcode⟩ := implemented_and_code_of_classify hfound
    rw [OpcodeMap.code_injective hm hcode]

theorem classify_eq_some_iff {m : OpcodeMap} (hm : m.wf = true) {v : Opcode} {n : OpName} :
    classify m v = some n ↔ n ∈ OpName.implemented ∧ m.code n = v where
  mp := implemented_and_code_of_classify
  mpr := by
    rintro ⟨hn, rfl⟩
    exact classify_code hm hn

/-- Settles O7: the nine names are `OpName.implemented`, the list that `classify` searches. -/
theorem classifyGivesOneOfTenClasses : Obligations.ClassifyGivesOneOfTenClasses :=
  fun _ hm _ => ⟨fun _ => classify_eq_some_iff hm, classify_eq_none_iff⟩

end Sys2Proof
end

section
/-! SUPPORT. Arithmetic with two words on the stack (42_arithmetic.md R141): both pops succeed, and they
leave the room that the push of a result needs. -/

namespace Sys2Proof.Machine

/-- A push with room as the last statement, where the memory ends with the stack region. -/
theorem pushResult_of_lt {s : State} (hc : s.cfg.sizesWf = true) (v : Word)
    (hroom : s.sp < s.cfg.n) :
    pushResult v s = .next ((s.withMem (s.mem.write s.sp v)).withSp (s.sp + 1)) := by
  obtain ⟨hend, -, -⟩ := stackStart_facts hc
  simp [pushResult, push_of_lt (hend.symm ▸ hroom) hroom]

section
variable {s : State} (hc : s.cfg.sizesWf = true) (hdepth : s.cfg.stackStart + 2 ≤ s.sp)
  (hn : s.sp ≤ s.cfg.n)
include hdepth hn

/-- The top word is `b` and the word below it `a` (40_execution_loop.md R112). -/
theorem withTwoPops_of_two_words (rest : Word → Word → State → Result State) :
    withTwoPops s rest =
      rest (s.wordAt (s.sp - 2)) (s.wordAt (s.sp - 1)) (s.withSp (s.sp - 2)) := by
  have hfirst : s.cfg.stackStart < s.sp := by omega
  have hsecond : s.cfg.stackStart < s.sp - 1 := by omega
  have hinside : s.sp - 1 - 1 < s.cfg.n := by omega
  rw [withTwoPops, withPop_of_lt hfirst (by omega),
    withPop_of_lt (s := s.withSp (s.sp - 1)) hsecond hinside]
  rfl

include hc

/-- The room of the two popped words takes the result. -/
theorem pushResult_after_two_pops (v : Word) :
    pushResult v (s.withSp (s.sp - 2)) =
      .next ((s.withMem (s.mem.write (s.sp - 2) v)).withSp (s.sp - 1)) := by
  have hroom : s.sp - 2 < s.cfg.n := by omega
  have hsp : s.sp - 2 + 1 = s.sp - 1 := by omega
  calc pushResult v (s.withSp (s.sp - 2))
      = .next ((s.withMem (s.mem.write (s.sp - 2) v)).withSp (s.sp - 2 + 1)) :=
        pushResult_of_lt (s := s.withSp (s.sp - 2)) hc v hroom
    _ = .next ((s.withMem (s.mem.write (s.sp - 2) v)).withSp (s.sp - 1)) := by rw [hsp]

/-- ADD, SUB and MUL differ only in the word they put in the place of the two popped ones. -/
theorem exec_add_sub_mul_of_two_words {x : Operand} {i : Instr}
    (hi : i ∈ [Instr.add x, .sub x, .mul x]) :
    ∃ v, exec i s = .next ((s.withMem (s.mem.write (s.sp - 2) v)).withSp (s.sp - 1)) := by
  have hresult (op : Word → Word → Word) :
      ∃ v, withTwoPops s (fun a b u => pushResult (op a b) u) =
        .next ((s.withMem (s.mem.write (s.sp - 2) v)).withSp (s.sp - 1)) :=
    ⟨_, (withTwoPops_of_two_words hdepth hn _).trans (pushResult_after_two_pops hc hdepth hn _)⟩
  simp only [List.mem_cons, List.not_mem_nil, or_false] at hi
  obtain rfl | rfl | rfl := hi
  · exact hresult addWords
  · exact hresult subWords
  · exact hresult mulWords

/-- DIV tests the divisor after both pops (42_arithmetic.md R148). -/
theorem exec_div_of_two_words (x : Operand) :
    exec (.div x) s = .next (if s.wordAt (s.sp - 1) = 0
      then raise .divideByZero (s.withSp (s.sp - 2))
      else (s.withMem (s.mem.write (s.sp - 2)
        (divWords (s.wordAt (s.sp - 2)) (s.wordAt (s.sp - 1))))).withSp (s.sp - 1)) := by
  simp only [exec, execDiv, withTwoPops_of_two_words hdepth hn,
    pushResult_after_two_pops hc hdepth hn, apply_ite Host.Outcome.next]

end

/-- Settles O16: a result put in the place of the two words touches memory and SP alone, so the only
event there can be is that of DIV by 0. -/
theorem arithmeticFaultsOnlyByDivideByZero : Obligations.ArithmeticFaultsOnlyByDivideByZero := by
  intro x s hc hdepth hn
  refine ⟨fun i hi => ?addSubMul, _, exec_div_of_two_words hc hdepth hn x, ?div⟩
  case addSubMul =>
    obtain ⟨v, hv⟩ := exec_add_sub_mul_of_two_words hc hdepth hn hi
    exact ⟨_, hv, rfl, rfl, rfl⟩
  case div =>
    by_cases hb : s.wordAt (s.sp - 1) = 0
    · rw [if_pos hb]
      exact .inr (raise_events _ _)
    · rw [if_neg hb]
      exact .inl ⟨rfl, rfl, rfl⟩

end Sys2Proof.Machine
end

section
/-! SUPPORT. Control and output (43_control_output.md R164, R167): what an instruction may send, how it
may end the run, and that events already sent stay sent. -/

namespace Sys2Proof.Machine

/-- `u` is a state that instruction `i`, begun in `s`, may be in after it has sent the events `es`: PC
not written, the events of `s` still in front, an OUT event only of PRINT, and the run ended only by
HALT or by a fault, which `es` then shows. -/
structure ReachedBy (i : Instr) (s : State) (es : List Event) (u : State) : Prop where
  pc : u.pc = s.pc
  events : u.events = s.events ++ es
  outOfPrint : outValues es ≠ [] → ∃ x, i = .print x
  runState : u.runState = s.runState ∨
    (u.runState = .halted ∧ ((∃ x, i = .halt x) ∨ ∃ k, Event.diag k ∈ es))

namespace ReachedBy

variable {i : Instr} {s u : State} {es : List Event}

theorem start (i : Instr) (s : State) : ReachedBy i s [] s where
  pc := rfl
  events := (List.append_nil _).symm
  outOfPrint := fun h => absurd rfl h
  runState := .inl rfl

/-- Taking a fault halts the core, and the DIAG event it sends says why. -/
theorem raiseFault (h : ReachedBy i s es u) (k : FaultKind) :
    ReachedBy i s (es ++ [.diag k]) (raise k u) where
  pc := (raise_pc k u).trans h.pc
  events := by rw [raise_events, h.events, List.append_assoc]
  outOfPrint := by simpa [outValues_append, outValues] using h.outOfPrint
  runState := .inr ⟨raise_runState k u, .inr ⟨k, by simp⟩⟩

/-- An OUT event leaves the run state alone, so only PRINT's name has to be known. -/
theorem sendOut (h : ReachedBy i s es u) (hprint : ∃ x, i = .print x) (v : Word) :
    ReachedBy i s (es ++ [.out v]) (u.send (.out v)) where
  pc := h.pc
  events := by rw [State.send_events, h.events, List.append_assoc]
  outOfPrint := fun _ => hprint
  runState := by
    refine h.runState.imp id (And.imp id (Or.imp id ?_))
    rintro ⟨k, hk⟩
    exact ⟨k, List.mem_append_left _ hk⟩

theorem halt (h : ReachedBy i s es u) (hhalt : ∃ x, i = .halt x) :
    ReachedBy i s es (u.withRunState .halted) where
  pc := h.pc
  events := h.events
  outOfPrint := h.outOfPrint
  runState := .inr ⟨rfl, .inl hhalt⟩

/-- A pop or a push writes memory and SP alone. -/
theorem withMem_withSp (h : ReachedBy i s es u) (m : Memory) (v : Nat) :
    ReachedBy i s es ((u.withMem m).withSp v) :=
  ⟨h.pc, h.events, h.outOfPrint, h.runState⟩

end ReachedBy

theorem exec_reachedBy {i : Instr} {s t : State} (h : exec i s = .next t) :
    ∃ es, ReachedBy i s es t := by
  refine exec_induction (P := fun u => ∃ es, ReachedBy i s es u)
    ?fault ?out ?pop ?push ?halt ⟨[], .start i s⟩ h
  case fault => exact fun k _ ⟨es, hu⟩ => ⟨es ++ [.diag k], hu.raiseFault k⟩
  case out => exact fun v _ hprint ⟨es, hu⟩ => ⟨es ++ [.out v], hu.sendOut hprint v⟩
  case pop => exact fun u ⟨es, hu⟩ _ _ => ⟨es, hu.withMem_withSp u.mem (u.sp - 1)⟩
  case push => exact fun _ _ ⟨es, hu⟩ _ _ => ⟨es, hu.withMem_withSp _ _⟩
  case halt => exact fun hhalt ⟨es, hs⟩ => ⟨es, hs.halt hhalt⟩

/-- Settles O24: the events after those of the start are the ones the instruction sent. -/
theorem instructionsNeverWritePc : Obligations.InstructionsNeverWritePc := by
  intro i s t h
  obtain ⟨es, hpc, hevents, -, hrun⟩ := exec_reachedBy h
  rw [hevents, List.drop_left]
  exact ⟨hpc, hrun⟩

/-! ### No event is withdrawn -/

theorem exec_events {i : Instr} {s t : State} (h : exec i s = .next t) : s.events <+: t.events := by
  obtain ⟨es, ht⟩ := exec_reachedBy h
  exact ⟨es, ht.events.symm⟩

/-- No command of the host sends an event or withdraws one. -/
theorem command_events {c : Command} {s t : State} (h : command c s = .next t) :
    t.events = s.events := by
  cases c with
  | load words =>
    obtain ⟨-, m, rfl⟩ := loadProgram_cases h
    exact State.withMem_events s m
  | run =>
    obtain ⟨-, rfl⟩ := startRun_cases h
    exact resetForRun_events s
  | dump =>
    obtain rfl := Host.Outcome.next.inj h
    rfl

/-- A step of a run sends what its instruction sends, or the DIAG event of the fetch fault. -/
theorem runStep_events {s t : State} (h : runStep s = .next t) : s.events <+: t.events := by
  rcases runStep_cases h with ⟨-, hexecute⟩ | ⟨-, rfl⟩
  · obtain ⟨i, hexec⟩ := exists_exec_of_execute hexecute
    exact State.withPc_events s _ ▸ exec_events hexec
  · exact ⟨[.diag .programBounds], (raise_events _ s).symm⟩

theorem waitStep_events {s t : State} (h : waitStep s = .next t) : t.events = s.events := by
  rcases waitStep_cases h with ⟨-, rfl⟩ | ⟨c, rest, -, hcommand⟩
  · rfl
  · exact (command_events hcommand).trans (State.withInbox_events s rest)

theorem step_events {s t : State} (h : step s = .next t) : s.events <+: t.events := by
  by_cases hr : s.runState = .running
  · exact runStep_events (step_of_running hr ▸ h)
  · have hkept : t.events = s.events := waitStep_events (step_of_not_running hr ▸ h)
    exact hkept ▸ List.prefix_rfl

/-- PRINT with a word on the stack pops it and sends it. -/
theorem exec_print_of_lt (x : Operand) {s : State} (hdepth : s.cfg.stackStart < s.sp)
    (hn : s.sp ≤ s.cfg.n) :
    exec (.print x) s =
      .next ((s.withSp (s.sp - 1)).send (.out (s.wordAt (s.sp - 1)))) := by
  have hinside : s.sp - 1 < s.cfg.n := by omega
  simp only [exec, execPrint, withPop_of_lt hdepth hinside, emitOut]

/-- Settles O27: `take` gives back the events of the start, and `drop` leaves what the instruction
sent. -/
theorem outputIsSentInOrderByPrintAlone : Obligations.OutputIsSentInOrderByPrintAlone := by
  refine ⟨fun i s t h => ?instr, fun x s hdepth hn => ?print, fun s t h => ?step⟩
  case instr =>
    obtain ⟨es, ht⟩ := exec_reachedBy h
    rw [ht.events, List.take_left, List.drop_left]
    exact ⟨rfl, ht.outOfPrint⟩
  case print => exact ⟨_, exec_print_of_lt x hdepth hn, rfl, rfl⟩
  case step => exact (List.prefix_iff_eq_take.mp (step_events h)).symm

end Sys2Proof.Machine
end

section
/-! SUPPORT. The codec in both directions (30_encoding.md R91 to R101): a word and its two fields
determine each other, and under a legal map a name and its value do. -/

namespace Sys2Proof

/-! ### From instruction to word and back -/

/-- The word of an instruction carries its fields (`Laws.EncodeFields`, for every name at once). -/
theorem decodeFields_encode (m : OpcodeMap) (i : Instr) :
    decodeFields (encode m i) = (m.code i.name, i.operand) :=
  Prod.ext (opcodeField_packWord _ _) (operandField_packWord _ _)

/-- Settles O5: the opcode field of the word names the instruction, since no two names share a
value. -/
theorem decodeOfEncodeIsTheInstruction : Obligations.DecodeOfEncodeIsTheInstruction := by
  intro m hm i
  obtain ⟨hopcode, hoperand⟩ := Prod.mk.inj (decodeFields_encode m i)
  simp only [decode, hopcode, hoperand, nameOf_code hm, name_instr_operand]

/-! ### From word to instruction and back -/

theorem nameOf_eq_none_iff {m : OpcodeMap} {v : Opcode} :
    nameOf m v = none ↔ ∀ n : OpName, m.code n ≠ v := by
  simp [nameOf, List.find?_eq_none, OpName.mem_all]

/-- Settles O2: `nameOf` answers a name with the value it was asked for, or no name has that value.
-/
theorem decodeKeepsTheFieldsOfTheWord : Obligations.DecodeKeepsTheFieldsOfTheWord := by
  intro m w
  cases hname : nameOf m (opcodeField w) with
  | some n => simp [decode, hname, decodeFields, code_of_nameOf hname]
  | none => simpa [decode, hname, decodeFields] using nameOf_eq_none_iff.mp hname

theorem fields_of_decode {m : OpcodeMap} {w : Word} {i : Instr} (h : decode m w = .instr i) :
    m.code i.name = opcodeField w ∧ i.operand = operandField w := by
  have hfields := decodeKeepsTheFieldsOfTheWord m w
  rwa [h] at hfields

/-- The two fields do not overlap, so packing them is adding them up. -/
theorem toNat_packWord (v : Opcode) (x : Operand) :
    (packWord v x).toNat = v.toNat + 2 ^ 8 * x.toNat := by
  have hsplit : (packWord v x).toNat % 2 ^ 8 = v.toNat := by
    rw [← toNat_opcodeField, opcodeField_packWord]
  have hrest : (packWord v x).toNat / 2 ^ 8 = x.toNat := by
    rw [← toNat_operandField, operandField_packWord]
  rw [← hsplit, ← hrest, Nat.mod_add_div]

theorem packWord_fields (w : Word) : packWord (opcodeField w) (operandField w) = w := by
  apply BitVec.eq_of_toNat_eq
  rw [toNat_packWord, toNat_opcodeField, toNat_operandField, Nat.mod_add_div]

/-- Settles O6: the instruction holds the word's two fields, and packing them gives the word. -/
theorem encodeOfDecodeIsTheWord : Obligations.EncodeOfDecodeIsTheWord := by
  intro m w i h
  obtain ⟨hopcode, hoperand⟩ := fields_of_decode h
  rw [encode, hopcode, hoperand, packWord_fields]

/-! ### The codec on numbers -/

/-- In range, `encode` on numbers is the packing of the two fields that they make. -/
theorem encodeFields_of_le {opcode : Nat} (h : opcode ≤ 255) (operand : Nat) :
    encodeFields opcode operand =
      some (packWord (BitVec.ofNat 8 opcode) (BitVec.ofNat 24 operand)) := by
  have hmask : operand &&& 0xFFFFFF = operand % 2 ^ 24 :=
    Nat.and_two_pow_sub_one_eq_mod operand 24
  have hopcode : (BitVec.ofNat 8 opcode).setWidth 32 = BitVec.ofNat 32 opcode := by bv_omega
  have hoperand : (BitVec.ofNat 24 operand).setWidth 32 <<< 8 =
      BitVec.ofNat 32 ((operand % 2 ^ 24) <<< 8) := by
    apply BitVec.eq_of_toNat_eq
    simp only [BitVec.toNat_shiftLeft, BitVec.toNat_setWidth, BitVec.toNat_ofNat,
      Nat.shiftLeft_eq]
    omega
  simp only [encodeFields, opcodeInRange, h, decide_true, if_true, packWord, hmask, hopcode,
    hoperand, BitVec.ofNat_or]

/-- Settles O3: what is packed is the opcode as it stands and the operand modulo 2^24. -/
theorem encodePacksMasksAndRefuses : Obligations.EncodePacksMasksAndRefuses := by
  intro opcode operand
  refine ⟨fun h => ⟨_, encodeFields_of_le h operand, ?packs⟩, fun h => ?refuses⟩
  case packs =>
    rw [toNat_packWord, BitVec.toNat_ofNat, BitVec.toNat_ofNat,
      Nat.mod_eq_of_lt (Nat.lt_succ_of_le h)]
  case refuses =>
    have hout : ¬opcode ≤ 255 := Nat.not_le.mpr h
    simp [encodeFields, opcodeInRange, hout]

/-- Settles O4: both directions are facts about `packWord`. -/
theorem codecRoundTripsInBothDirections : Obligations.CodecRoundTripsInBothDirections := by
  refine ⟨fun opcode operand h _ => ⟨_, encodeFields_of_le h operand, ?decoded⟩, fun w => ?encoded⟩
  case decoded => exact Prod.ext (opcodeField_packWord _ _) (operandField_packWord _ _)
  case encoded =>
    have hopcode : (opcodeField w).toNat ≤ 255 := Nat.le_of_lt_succ (opcodeField w).isLt
    simp only [decodeFields, encodeFields_of_le hopcode, BitVec.ofNat_toNat, BitVec.setWidth_eq,
      packWord_fields]

/-! ### Assembling (30_encoding.md R101) -/

theorem assemble_of_wf {m : OpcodeMap} {n : OpName} {k : Option Nat}
    (h : (AsmItem.op n k).wf = true) :
    assemble m (.op n k) = some (encode m (n.instr (BitVec.ofNat 24 (k.getD 0)))) := by
  simp only [assemble, h, if_true]

theorem assemble_of_not_wf {m : OpcodeMap} {x : AsmItem} (h : x.wf = false) :
    assemble m x = none := by
  simp [assemble, h]

theorem wf_push_some (k : Nat) : (AsmItem.op .push (some k)).wf = operandInRange k := rfl

/-- Every mnemonic but PUSH is written without an operand. -/
theorem wf_op_of_ne_push {n : OpName} (h : n ≠ .push) (k : Option Nat) :
    (AsmItem.op n k).wf = k.isNone := by
  cases n with
  | push => exact absurd rfl h
  | _ => rfl

/-- Settles O9: a well-formed element assembles to the word of the instruction written, which
decodes to it. -/
theorem notationAssemblesToWhatItSays : Obligations.NotationAssemblesToWhatItSays := by
  intro m hm
  have hdecode (i : Instr) : decode m (encode m i) = .instr i :=
    decodeOfEncodeIsTheInstruction m hm i
  refine ⟨fun k hk => ⟨_, assemble_of_wf ?inRange, hdecode _⟩,
    fun k hk => assemble_of_not_wf ?tooLarge, assemble_of_not_wf rfl,
    fun n hn => ⟨⟨_, assemble_of_wf (wf_op_of_ne_push hn none), hdecode _⟩,
      fun k => assemble_of_not_wf (wf_op_of_ne_push hn (some k))⟩, fun _ => rfl⟩
  case inRange => simpa [wf_push_some, operandInRange] using hk
  case tooLarge => simpa [wf_push_some, operandInRange] using hk

/-- Settles O8: seven decodings of closed words. -/
theorem writtenOutWordsDecode : Obligations.WrittenOutWordsDecode := by
  unfold Obligations.WrittenOutWordsDecode
  decide

end Sys2Proof
end

section
/-! SUPPORT. Executing a word (40_execution_loop.md R110 to R115): what each class of opcode does,
and what a step of a run is inside memory and past its end. -/

namespace Sys2Proof.Machine

/-! ### UnknownOpcode -/

theorem unknownOpcode_eq (s : State) : unknownOpcode s = .next (s.afterFaults [.unknownOpcode]) :=
  congrArg Host.Outcome.next (raise_eq_afterFaults .unknownOpcode s)

/-- The names that are not implemented are the nine reserved ones, which share one meaning. -/
theorem exec_of_not_implemented {i : Instr} (h : i.name ∉ OpName.implemented) (s : State) :
    exec i s = unknownOpcode s := by
  cases i with
  | load | store | mov | jmp | jz | jnz | call | ret | read => rfl
  | _ => exact absurd (by simp [Instr.name, OpName.implemented]) h

/-- Settles O19: the nine instructions of the list have names that are not implemented. -/
theorem reservedInstructionsTakeUnknownOpcode :
    Obligations.ReservedInstructionsTakeUnknownOpcode := by
  intro x s i hi
  have hreserved : i.name ∉ OpName.implemented := by
    simp only [List.mem_cons, List.not_mem_nil, or_false] at hi
    rcases hi with rfl | rfl | rfl | rfl | rfl | rfl | rfl | rfl | rfl <;>
      simp [Instr.name, OpName.implemented]
  rw [exec_of_not_implemented hreserved, unknownOpcode_eq]

/-- Settles O20: the operand field occurs in the meaning of PUSH alone. -/
theorem onlyPushReadsItsOperandField : Obligations.OnlyPushReadsItsOperandField := by
  intro n x y s hn
  cases n with
  | push => exact absurd rfl hn
  | _ => rfl

/-- Settles O10: both meanings are one record update, or none. -/
theorem haltStopsAndNopDoesNothing : Obligations.HaltStopsAndNopDoesNothing :=
  fun _ _ => ⟨rfl, rfl⟩

/-! ### execute -/

theorem execute_of_instr {w : Word} {s : State} {i : Instr}
    (h : decode s.cfg.opcodeMap w = .instr i) : execute w s = exec i s := by
  simp only [execute, h]

theorem execute_of_undefined {w : Word} {s : State} {v : Opcode}
    (h : decode s.cfg.opcodeMap w = .undefinedOpcode v) : execute w s = unknownOpcode s := by
  simp only [execute, h]

theorem execute_of_classify_some {w : Word} {s : State} {n : OpName}
    (h : classify s.cfg.opcodeMap (opcodeField w) = some n) :
    execute w s = exec (n.instr (operandField w)) s := by
  apply execute_of_instr
  simp only [decode, nameOf_of_classify h]

/-- The class Unknown holds the reserved names and the values of no name. -/
theorem execute_of_classify_none {w : Word} {s : State}
    (h : classify s.cfg.opcodeMap (opcodeField w) = none) : execute w s = unknownOpcode s := by
  cases hname : nameOf s.cfg.opcodeMap (opcodeField w) with
  | some n =>
    have hdecode : decode s.cfg.opcodeMap w = .instr (n.instr (operandField w)) := by
      simp only [decode, hname]
    have hreserved : (n.instr (operandField w)).name ∉ OpName.implemented := by
      simpa using not_implemented_of_classify h hname
    rw [execute_of_instr hdecode, exec_of_not_implemented hreserved]
  | none =>
    exact execute_of_undefined (v := opcodeField w) (by simp only [decode, hname])

/-- Settles O29: the class decides between the two rules. -/
theorem executeRunsTheRuleOfTheClass : Obligations.ExecuteRunsTheRuleOfTheClass :=
  fun _ s => ⟨fun _ => execute_of_classify_some,
    fun h => (execute_of_classify_none h).trans (unknownOpcode_eq s)⟩

/-! ### The step of a run -/

/-- A fetch past the end takes its fault, and the HALT word it hands on finds the flag clear. -/
theorem runStep_of_le {s : State} (h : s.cfg.n ≤ s.pc) :
    runStep s = .next (raise .programBounds s) := by
  have hdecode : decode (raise .programBounds s).cfg.opcodeMap (haltWord s.cfg.opcodeMap) =
      .instr (.halt 0) := by rw [raise_cfg, decode_haltWord]
  have hhalted : (raise .programBounds s).withRunState .halted = raise .programBounds s := rfl
  have hfetch : fetch s = .next (haltWord s.cfg.opcodeMap, raise .programBounds s) := by
    simp [fetch, Nat.not_lt.mpr h]
  simp only [runStep, hfetch, andThen_next, execute_of_instr hdecode, exec, execHalt,
    clearRunning_eq, hhalted]

/-- Settles O30: the step of a run past the end is the fault alone. -/
theorem fetchPastTheEndTakesProgramBoundsFault :
    Obligations.FetchPastTheEndTakesProgramBoundsFault := by
  intro s hr hpc
  rw [step_of_running hr, runStep_of_le hpc, raise_eq_afterFaults]

theorem step_of_running_of_lt {s : State} (hr : s.runState = .running) (hpc : s.pc < s.cfg.n) :
    step s = execute (s.wordAt s.pc) (s.withPc (s.pc + 1)) := by
  rw [step_of_running hr, runStep_of_lt hpc]

/-- Settles O28: fetching leaves the configuration, so the word is decoded under the same map. -/
theorem stepRunsTheDecodedInstruction : Obligations.StepRunsTheDecodedInstruction := by
  intro s hr hpc
  rw [step_of_running_of_lt hr hpc]
  refine ⟨fun i hi => ?instr, fun v hv => ?undefined⟩
  case instr => exact execute_of_instr (s := s.withPc (s.pc + 1)) hi
  case undefined =>
    exact (execute_of_undefined (s := s.withPc (s.pc + 1)) hv).trans (unknownOpcode_eq _)

end Sys2Proof.Machine
end

section
/-! SUPPORT. The core between runs (00_scope.md R14; 60_exceptions.md R195, R196): waiting, LOAD,
RUN and DUMP. -/

namespace Sys2Proof.Machine

theorem waitStep_of_nil {s : State} (h : s.inbox = []) : waitStep s = .next s := by
  simp only [waitStep, h]

theorem waitStep_of_cons {s : State} {c : Command} {rest : List Command} (h : s.inbox = c :: rest) :
    waitStep s = command c (s.withInbox rest) := by
  simp only [waitStep, h]

/-- Settles O40: a core that is not Running waits. -/
theorem waitingCoreTakesTheNextCommand : Obligations.WaitingCoreTakesTheNextCommand := by
  intro s hr
  rw [step_of_not_running hr]
  exact ⟨waitStep_of_nil, fun _ _ => waitStep_of_cons⟩

theorem loadProgram_of_running {s : State} (hr : s.runState = .running) (words : List Word) :
    loadProgram words s = .refused .commandWhileRunning :=
  if_pos ((running_iff s).mpr hr)

theorem startRun_of_running {s : State} (hr : s.runState = .running) :
    startRun s = .refused .commandWhileRunning :=
  if_pos ((running_iff s).mpr hr)

/-- Settles O42: LOAD and RUN test the running flag first, DUMP does not. -/
theorem loadAndRunAreRefusedWhileRunning : Obligations.LoadAndRunAreRefusedWhileRunning :=
  fun words _ hr => ⟨loadProgram_of_running hr words, startRun_of_running hr, rfl⟩

theorem startRun_of_not_running {s : State} (hr : s.runState ≠ .running) :
    startRun s = .next ((resetForRun s).withRunState .running) :=
  if_neg (by simpa using hr)

/-- Settles O43: `resetForRun` under each policy, as one record update. -/
theorem runStartsAtTheEntryPoint : Obligations.RunStartsAtTheEntryPoint := by
  intro s hr
  have hrun : command .run s = .next ((resetForRun s).withRunState .running) :=
    startRun_of_not_running hr
  refine ⟨fun hpolicy => ?fullReset, fun hpolicy => ?carryOver⟩ <;>
    (rw [hrun, resetForRun, hpolicy]; rfl)

/-- Where a range of at most `k` words that ends at SP begins decides how many words it has. -/
theorem sub_max_eq_min (sp low k : Nat) : sp - max low (sp - k) = min k (sp - low) := by omega

/-- Settles O44: DUMP reads the words from the higher of STACK_START and SP - 10 up to SP. -/
theorem dumpReturnsTheLastTenStackWords : Obligations.DumpReturnsTheLastTenStackWords := by
  rintro s - ⟨hlow, hhigh⟩
  have hfits : max s.cfg.stackStart (s.sp - 10) + (s.sp - max s.cfg.stackStart (s.sp - 10)) ≤
      s.cfg.n := by omega
  refine ⟨?_, rfl⟩
  rw [← sub_max_eq_min, dump, readFrom_spec _ _ s hfits, andThen_next]

/-! ### Halted -/

theorem loop_of_not_running {s : State} (hr : s.runState ≠ .running) (fuel : Nat) :
    loop fuel s = .next s := by
  cases fuel with
  | zero => rfl
  | succ fuel => exact if_neg (by simpa using hr)

/-- RUN is the one command that changes the run state. -/
theorem command_runState {c : Command} {s t : State} (h : command c s = .next t) :
    t.runState = s.runState ∨ c = .run := by
  cases c with
  | load words =>
    obtain ⟨-, m, rfl⟩ := loadProgram_cases h
    exact .inl (State.withMem_runState s m)
  | run => exact .inr rfl
  | dump =>
    obtain rfl := Host.Outcome.next.inj h
    exact .inl rfl

/-- Settles O39: in Halted a step takes a command or does nothing, and of the commands RUN alone
changes the run state. -/
theorem haltedIsLeftByRunAlone : Obligations.HaltedIsLeftByRunAlone := by
  intro s hs
  have hr : s.runState ≠ .running := by simp [hs]
  refine ⟨loop_of_not_running hr, fun c t h => hs ▸ command_runState h, fun t h => ?step⟩
  rw [step_of_not_running hr] at h
  rcases waitStep_cases h with ⟨-, rfl⟩ | ⟨c, rest, hinbox, hcommand⟩
  · exact .inl hs
  · refine (command_runState hcommand).imp (fun hkept => hkept.trans hs) fun hc => ?_
    rw [hinbox, hc, List.head?_cons]

end Sys2Proof.Machine
end

section
/-! SUPPORT. The stack instructions and PRINT (41_stack_transfer.md, 43_control_output.md R162),
each as one record update for every stack depth. -/

namespace Sys2Proof.Machine

/-- Zero extension keeps the number (30_encoding.md R94). -/
theorem immediate_eq (x : Operand) : immediate x = BitVec.ofNat 32 x.toNat :=
  (BitVec.ofNat_toNat 32 x).symm

theorem exec_pop (x : Operand) (s : State) :
    exec (.pop x) s = withPop s fun _ s' => .next s' := rfl

theorem exec_print (x : Operand) (s : State) :
    exec (.print x) s = withPop s fun v s' => .next (s'.send (.out v)) := rfl

theorem pushResult_of_full {s : State} (hc : s.cfg.sizesWf = true) (v : Word)
    (hfull : s.sp = s.cfg.n) : pushResult v s = .next (s.afterFaults [.stackOverflow]) := by
  obtain ⟨hend, -, -⟩ := stackStart_facts hc
  have hnoRoom : ¬s.sp < s.cfg.stackStart + s.cfg.stackSize := by omega
  simp only [pushResult, push, if_neg hnoRoom, andThen_next, raise_eq_afterFaults]

theorem exec_push_of_lt {s : State} (hc : s.cfg.sizesWf = true) (x : Operand)
    (hroom : s.sp < s.cfg.n) :
    exec (.push x) s =
      .next ((s.withMem (s.mem.write s.sp (BitVec.ofNat 32 x.toNat))).withSp (s.sp + 1)) :=
  immediate_eq x ▸ pushResult_of_lt hc (immediate x) hroom

/-- Settles O11: PUSH is its last statement alone. -/
theorem pushWritesTheImmediateOrOverflows : Obligations.PushWritesTheImmediateOrOverflows :=
  fun x _ hc _ => ⟨exec_push_of_lt hc x, pushResult_of_full hc (immediate x)⟩

/-- Settles O12: the popped word is dropped, and a failed pop has nothing after it under either
mode. -/
theorem popDropsTheTopOrUnderflows : Obligations.PopDropsTheTopOrUnderflows := by
  rintro x s - ⟨-, hhigh⟩
  rw [exec_pop]
  refine ⟨fun hdepth => withPop_of_lt hdepth (by omega), fun hempty => ?empty⟩
  rw [← raise_eq_afterFaults]
  cases hmode : s.cfg.popFaultMode with
  | abort => exact withPop_of_le_abort hempty.le hmode
  | continues => exact withPop_of_le_continues hempty.le hmode

/-- Settles O13: only Continue goes on to the output. -/
theorem printSendsTheTopOrUnderflows : Obligations.PrintSendsTheTopOrUnderflows := by
  rintro x s - ⟨-, hhigh⟩
  refine ⟨fun hdepth => exec_print_of_lt x hdepth hhigh, fun hempty hmode => ?abort,
    fun hempty hmode => ?continues⟩
  case abort => rw [exec_print, withPop_of_le_abort hempty.le hmode, raise_eq_afterFaults]
  case continues =>
    rw [exec_print, withPop_of_le_continues hempty.le hmode, raise_eq_afterFaults]
    simp [State.send, State.afterFaults]

/-- Settles O38: PRINT finds the word that PUSH wrote one below SP. -/
theorem pushThenPrintSendsTheImmediate : Obligations.PushThenPrintSendsTheImmediate := by
  rintro x y s hc ⟨hlow, -⟩ hroom
  refine ⟨_, _, exec_push_of_lt hc x hroom, exec_print_of_lt y ?depth ?inside, ?sp, ?sent⟩
  case depth => exact Nat.lt_succ_of_le hlow
  case inside => exact Nat.succ_le_of_lt hroom
  case sp => simp
  case sent => simp [wordAt_withMem_write]

/-- Settles O37: the pushed word stands where the next step fetches, and PUSH leaves the run state
and the PC that the fetch set. -/
theorem fetchSeesThePushedWord : Obligations.FetchSeesThePushedWord := by
  intro s x hc hr hsp hroom hdecode
  have hpc : s.pc < s.cfg.n := by omega
  have hpush := (stepRunsTheDecodedInstruction s hr hpc).1 (.push x) hdecode
  have hanswer := exec_push_of_lt (s := s.withPc (s.pc + 1)) hc x hroom
  refine ⟨_, hpush.trans hanswer, hr, hsp.symm, ?next⟩
  rw [step_of_running_of_lt (by exact hr) (by exact hsp ▸ hroom)]
  simp [wordAt_withMem_write, hsp, State.withPc]

end Sys2Proof.Machine
end

section
/-! SUPPORT. Arithmetic at every stack depth and under both values of POP_FAULT_MODE
(42_arithmetic.md R145 to R148): the two pops first, then the words, then the four instructions. -/

namespace Sys2Proof.Machine

/-! ### The two pops of a short stack -/

section
variable {s : State} (rest : Word → Word → State → Result State)

theorem withTwoPops_of_empty_abort (hempty : s.sp = s.cfg.stackStart)
    (hmode : s.cfg.popFaultMode = .abort) :
    withTwoPops s rest = .next (s.afterFaults [.stackUnderflow]) := by
  rw [withTwoPops, withPop_of_le_abort hempty.le hmode, raise_eq_afterFaults]

theorem withTwoPops_of_empty_continues (hempty : s.sp = s.cfg.stackStart)
    (hmode : s.cfg.popFaultMode = .continues) :
    withTwoPops s rest = rest 0 0 (s.afterFaults [.stackUnderflow, .stackUnderflow]) := by
  have hagain : (raise .stackUnderflow s).sp ≤ (raise .stackUnderflow s).cfg.stackStart := by
    simp [hempty]
  rw [withTwoPops, withPop_of_le_continues hempty.le hmode,
    withPop_of_le_continues hagain (by simpa using hmode), raise_eq_afterFaults,
    raise_eq_afterFaults, afterFaults_afterFaults]

/-- The first pop of a stack of one word takes that word, and the second finds the stack empty. -/
theorem withTwoPops_of_one_word (hc : s.cfg.sizesWf = true) (hone : s.sp = s.cfg.stackStart + 1) :
    withTwoPops s rest = withPop (s.withSp s.cfg.stackStart) fun a u =>
      rest a (s.wordAt s.cfg.stackStart) u := by
  obtain ⟨-, hstart, -⟩ := stackStart_facts hc
  have hsp : s.sp - 1 = s.cfg.stackStart := by omega
  rw [withTwoPops, withPop_of_lt (by omega) (by omega), hsp]

theorem withTwoPops_of_one_word_abort (hc : s.cfg.sizesWf = true)
    (hone : s.sp = s.cfg.stackStart + 1) (hmode : s.cfg.popFaultMode = .abort) :
    withTwoPops s rest =
      .next ((s.withSp s.cfg.stackStart).afterFaults [.stackUnderflow]) := by
  rw [withTwoPops_of_one_word rest hc hone, withPop_of_le_abort (by simp) (by simpa using hmode),
    raise_eq_afterFaults]

theorem withTwoPops_of_one_word_continues (hc : s.cfg.sizesWf = true)
    (hone : s.sp = s.cfg.stackStart + 1) (hmode : s.cfg.popFaultMode = .continues) :
    withTwoPops s rest = rest 0 (s.wordAt s.cfg.stackStart)
      ((s.withSp s.cfg.stackStart).afterFaults [.stackUnderflow]) := by
  rw [withTwoPops_of_one_word rest hc hone,
    withPop_of_le_continues (by simp) (by simpa using hmode), raise_eq_afterFaults]

end

/-- A push onto an empty stack after faults, which change neither the stack nor memory. -/
theorem pushResult_afterFaults {s : State} (hc : s.cfg.sizesWf = true) (v : Word)
    (ks : List FaultKind) :
    pushResult v ((s.withSp s.cfg.stackStart).afterFaults ks) =
      .next (((s.withMem (s.mem.write s.cfg.stackStart v)).withSp
        (s.cfg.stackStart + 1)).afterFaults ks) := by
  obtain ⟨-, hroom, -⟩ := stackStart_facts hc
  exact pushResult_of_lt (s := (s.withSp s.cfg.stackStart).afterFaults ks) hc v hroom

/-! ### The words -/

theorem ofNat_mod_two_pow (k : Nat) : BitVec.ofNat 32 (k % 2 ^ 32) = BitVec.ofNat 32 k :=
  BitVec.eq_of_toNat_eq (by simp)

theorem addWords_eq (a b : Word) :
    addWords a b = BitVec.ofNat 32 ((a.toNat + b.toNat) % 2 ^ 32) :=
  (ofNat_mod_two_pow _).symm

theorem mulWords_eq (a b : Word) :
    mulWords a b = BitVec.ofNat 32 ((a.toNat * b.toNat) % 2 ^ 32) :=
  (ofNat_mod_two_pow _).symm

theorem subWords_eq (a b : Word) :
    subWords a b = BitVec.ofNat 32
      (if b.toNat ≤ a.toNat then a.toNat - b.toNat else 2 ^ 32 - (b.toNat - a.toNat)) := by
  unfold subWords
  split <;> bv_omega

theorem addWords_zero_left (b : Word) : addWords 0 b = BitVec.ofNat 32 b.toNat := by
  simp [addWords]

theorem subWords_zero_left (b : Word) :
    subWords 0 b = BitVec.ofNat 32 ((2 ^ 32 - b.toNat) % 2 ^ 32) :=
  (ofNat_mod_two_pow _).symm

theorem mulWords_zero_left (b : Word) : mulWords 0 b = BitVec.ofNat 32 0 := by
  simp [mulWords]

theorem divWords_zero_left (b : Word) : divWords 0 b = BitVec.ofNat 32 0 := by
  simp [divWords]

/-! ### The four instructions -/

section
variable (x : Operand) (s : State)

theorem exec_add : exec (.add x) s = withTwoPops s fun a b u => pushResult (addWords a b) u := rfl
theorem exec_sub : exec (.sub x) s = withTwoPops s fun a b u => pushResult (subWords a b) u := rfl
theorem exec_mul : exec (.mul x) s = withTwoPops s fun a b u => pushResult (mulWords a b) u := rfl
theorem exec_div : exec (.div x) s = withTwoPops s fun a b u =>
    if b = 0 then .next (raise .divideByZero u) else pushResult (divWords a b) u := rfl

end

/-- What an arithmetic instruction does after its two pops: push a word, or take DivideByZero. -/
def PushesOrDividesByZero (g : State → Result State) : Prop :=
  (∃ v, g = pushResult v) ∨ g = fun u => .next (raise .divideByZero u)

theorem exec_arithmetic {x : Operand} {i : Instr} (hi : i ∈ [Instr.add x, .sub x, .mul x, .div x]) :
    ∃ rest, (∀ s, exec i s = withTwoPops s rest) ∧ ∀ a b, PushesOrDividesByZero (rest a b) := by
  simp only [List.mem_cons, List.not_mem_nil, or_false] at hi
  obtain rfl | rfl | rfl | rfl := hi
  · exact ⟨_, exec_add x, fun _ _ => .inl ⟨_, rfl⟩⟩
  · exact ⟨_, exec_sub x, fun _ _ => .inl ⟨_, rfl⟩⟩
  · exact ⟨_, exec_mul x, fun _ _ => .inl ⟨_, rfl⟩⟩
  · refine ⟨_, exec_div x, fun a b => ?_⟩
    by_cases hb : b = 0
    · exact .inr (funext fun _ => if_pos hb)
    · exact .inl ⟨_, funext fun _ => if_neg hb⟩

/-- Settles O17: the first failed pop ends the two pops, whatever comes after them. -/
theorem shortStackArithmeticUnderAbort : Obligations.ShortStackArithmeticUnderAbort := by
  intro x s hc hmode i hi
  obtain ⟨rest, hexec, -⟩ := exec_arithmetic hi
  rw [hexec]
  exact ⟨fun hone => withTwoPops_of_one_word_abort rest hc hone hmode,
    fun hempty => withTwoPops_of_empty_abort rest hempty hmode⟩

/-- Settles O14: the result of the three operations, in the place of the two words. -/
theorem addSubMulReplaceTheTopTwoWords : Obligations.AddSubMulReplaceTheTopTwoWords := by
  intro x s hc hdepth hn a b result
  have hresult (op : Word → Word → Word) :
      withTwoPops s (fun a b u => pushResult (op a b) u) =
        .next ((s.withMem (s.mem.write (s.sp - 2)
          (op (s.wordAt (s.sp - 2)) (s.wordAt (s.sp - 1))))).withSp (s.sp - 1)) :=
    (withTwoPops_of_two_words hdepth hn _).trans (pushResult_after_two_pops hc hdepth hn _)
  refine ⟨?add, ?sub, ?mul⟩
  case add => rw [exec_add, hresult, addWords_eq]; rfl
  case sub => rw [exec_sub, hresult, subWords_eq]; rfl
  case mul => rw [exec_mul, hresult, mulWords_eq]; rfl

/-- Settles O15: DIV tests the divisor as a word, the statement as a number. -/
theorem divReplacesTheTopTwoWordsOrFaults : Obligations.DivReplacesTheTopTwoWordsOrFaults := by
  intro x s hc hdepth hn a b
  have hzero : s.wordAt (s.sp - 1) = 0 ↔ b = 0 := BitVec.toNat_eq
  rw [exec_div_of_two_words hc hdepth hn x]
  refine ⟨fun hb => ?quotient, fun hb => ?fault⟩
  case quotient => rw [if_neg (mt hzero.mp hb)]; rfl
  case fault => rw [if_pos (hzero.mpr hb), raise_eq_afterFaults]; rfl

/-! ### Under Continue -/

section
variable {s : State} (hc : s.cfg.sizesWf = true) (hmode : s.cfg.popFaultMode = .continues)
include hc hmode

/-- The sentinel 0 stands for the missing left operand. -/
theorem binary_of_one_word_continues (op : Word → Word → Word)
    (hone : s.sp = s.cfg.stackStart + 1) :
    withTwoPops s (fun a b u => pushResult (op a b) u) =
      .next (((s.withMem (s.mem.write s.cfg.stackStart
        (op 0 (s.wordAt s.cfg.stackStart)))).withSp (s.cfg.stackStart + 1)).afterFaults
          [.stackUnderflow]) :=
  (withTwoPops_of_one_word_continues _ hc hone hmode).trans (pushResult_afterFaults hc _ _)

/-- The sentinel 0 stands for both operands. -/
theorem binary_of_empty_continues (op : Word → Word → Word) (hempty : s.sp = s.cfg.stackStart) :
    withTwoPops s (fun a b u => pushResult (op a b) u) =
      .next (((s.withMem (s.mem.write s.cfg.stackStart (op 0 0))).withSp
        (s.cfg.stackStart + 1)).afterFaults [.stackUnderflow, .stackUnderflow]) := by
  have hsame : s = s.withSp s.cfg.stackStart := by rw [← hempty]; rfl
  have hpush := pushResult_afterFaults hc (op 0 0) [.stackUnderflow, .stackUnderflow]
  rw [← hsame] at hpush
  exact (withTwoPops_of_empty_continues _ hempty hmode).trans hpush

theorem exec_div_of_one_word_continues (x : Operand) (hone : s.sp = s.cfg.stackStart + 1) :
    exec (.div x) s = .next (if s.wordAt s.cfg.stackStart = 0
      then (s.withSp s.cfg.stackStart).afterFaults [.stackUnderflow, .divideByZero]
      else ((s.withMem (s.mem.write s.cfg.stackStart 0)).withSp
        (s.cfg.stackStart + 1)).afterFaults [.stackUnderflow]) := by
  rw [exec_div, withTwoPops_of_one_word_continues _ hc hone hmode]
  split
  · rw [raise_eq_afterFaults, afterFaults_afterFaults]
  · rw [divWords_zero_left, pushResult_afterFaults hc]
    rfl

omit hc in
/-- The divisor is the sentinel of the first failed pop, so the third fault is DivideByZero. -/
theorem exec_div_of_empty_continues (x : Operand) (hempty : s.sp = s.cfg.stackStart) :
    exec (.div x) s =
      .next (s.afterFaults [.stackUnderflow, .stackUnderflow, .divideByZero]) := by
  rw [exec_div, withTwoPops_of_empty_continues _ hempty hmode, if_pos rfl, raise_eq_afterFaults,
    ← afterFaults_afterFaults s .stackUnderflow [.stackUnderflow],
    afterFaults_afterFaults (s.afterFaults _), afterFaults_afterFaults]

end

/-- Settles O18: one word and none, each instruction by the sentinel it computes with. -/
theorem shortStackArithmeticUnderContinue : Obligations.ShortStackArithmeticUnderContinue := by
  intro x s hc hmode low only pushed
  have hzero : s.wordAt low = 0 ↔ only = 0 := BitVec.toNat_eq
  refine ⟨fun hone => ⟨?add, ?sub, ?mul, ?quotient, ?byZero⟩, fun hempty => ⟨?empty, ?emptyDiv⟩⟩
  case add =>
    rw [exec_add, binary_of_one_word_continues hc hmode _ hone, addWords_zero_left]; rfl
  case sub =>
    rw [exec_sub, binary_of_one_word_continues hc hmode _ hone, subWords_zero_left]; rfl
  case mul =>
    rw [exec_mul, binary_of_one_word_continues hc hmode _ hone, mulWords_zero_left]; rfl
  case quotient =>
    intro hb
    rw [exec_div_of_one_word_continues hc hmode x hone, if_neg (mt hzero.mp hb)]; rfl
  case byZero =>
    intro hb
    rw [exec_div_of_one_word_continues hc hmode x hone, if_pos (hzero.mpr hb)]; rfl
  case empty =>
    intro i hi
    simp only [List.mem_cons, List.not_mem_nil, or_false] at hi
    obtain rfl | rfl | rfl := hi
    · exact binary_of_empty_continues hc hmode addWords hempty
    · exact binary_of_empty_continues hc hmode subWords hempty
    · exact binary_of_empty_continues hc hmode mulWords hempty
  case emptyDiv => exact exec_div_of_empty_continues hmode x hempty

end Sys2Proof.Machine
end

section
/-! SUPPORT. FAULT and the first DIAG event of the run (10_state.md R39): each event that can be
sent keeps them in agreement. -/

namespace Sys2Proof.Machine

/-- A later DIAG event counts only where no earlier one does. -/
theorem firstFaultCode_append_diag (es : List Event) (k : FaultKind) :
    firstFaultCode (es ++ [.diag k]) =
      if firstFaultCode es = 0 then k.code else firstFaultCode es := by
  unfold firstFaultCode
  rw [diagKinds_append]
  cases diagKinds es with
  | nil => rfl
  | cons j rest => simp

theorem firstFaultCode_append_out (es : List Event) (v : Word) :
    firstFaultCode (es ++ [.out v]) = firstFaultCode es := by
  unfold firstFaultCode
  rw [diagKinds_append, diagKinds, diagKinds, List.append_nil]

/-- The codes of 60_exceptions.md R181 end at 5. -/
theorem FaultKind.code_le (k : FaultKind) : k.code.toNat ≤ 5 := by cases k <;> decide

theorem firstFaultCode_le (es : List Event) : (firstFaultCode es).toNat ≤ 5 := by
  unfold firstFaultCode
  cases diagKinds es with
  | nil => exact Nat.zero_le 5
  | cons k rest => exact k.code_le

namespace FaultIsFirstDiag

variable {s : State}

theorem raise (h : FaultIsFirstDiag s) (k : FaultKind) : FaultIsFirstDiag (raise k s) := by
  obtain ⟨hmark, hfault⟩ := h
  refine ⟨?mark, ?code⟩
  case mark =>
    rw [raise_runMark, raise_events, List.length_append]
    exact Nat.le_add_right_of_le hmark
  case code =>
    have hevents : (Machine.raise k s).runEvents = s.runEvents ++ [.diag k] := by
      simp only [State.runEvents, raise_events, raise_runMark,
        List.drop_append_of_le_length hmark]
    rw [raise_fault, hevents, firstFaultCode_append_diag, hfault]

theorem sendOut (h : FaultIsFirstDiag s) (v : Word) : FaultIsFirstDiag (s.send (.out v)) := by
  obtain ⟨hmark, hfault⟩ := h
  refine ⟨?mark, ?code⟩
  case mark =>
    rw [State.send_runMark, State.send_events, List.length_append]
    exact Nat.le_add_right_of_le hmark
  case code =>
    have hevents : (s.send (.out v)).runEvents = s.runEvents ++ [.out v] := by
      simp only [State.runEvents, State.send_events, State.send_runMark,
        List.drop_append_of_le_length hmark]
    rw [State.send_fault, hevents, firstFaultCode_append_out, hfault]

/-- A run begins with no event of its own and with FAULT 0. -/
theorem startOfRun (s : State) : FaultIsFirstDiag ((resetForRun s).withRunState .running) := by
  simp [FaultIsFirstDiag, State.runEvents, firstFaultCode, diagKinds]

end FaultIsFirstDiag

theorem exec_faultIsFirstDiag {i : Instr} {s t : State} (hs : FaultIsFirstDiag s)
    (h : exec i s = .next t) : FaultIsFirstDiag t := by
  refine exec_induction (P := fun u => FaultIsFirstDiag u) ?fault ?out ?pop ?push ?halt hs h
  case fault => exact fun k _ hu => FaultIsFirstDiag.raise hu k
  case out => exact fun v _ _ hu => FaultIsFirstDiag.sendOut hu v
  case pop => exact fun _ hu _ _ => hu
  case push => exact fun _ _ hu _ _ => hu
  case halt => exact fun _ hs => hs

end Sys2Proof.Machine
end

section
/-! SUPPORT. The invariant (10_state.md R43): it holds of a fresh core, each of the five things an
instruction can do keeps it, and so does each command. -/

namespace Sys2Proof.Machine

/-! ### Each part of an instruction -/

namespace State.Inv

variable {s : State}

theorem sizesWf (h : s.Inv) : s.cfg.sizesWf = true := sizesWf_of_wf h.1

theorem raise (h : s.Inv) (k : FaultKind) : (raise k s).Inv := by
  obtain ⟨hcfg, hpc, hsp, hmem, hfault, -⟩ := h
  refine ⟨(raise_cfg k s).symm ▸ hcfg, ?_, ?_, ?_, FaultIsFirstDiag.raise hfault k, nofun⟩
  · simpa only [PcInRange, raise_cfg, raise_pc] using hpc
  · simpa only [SpInRange, raise_cfg, raise_sp] using hsp
  · simpa only [MemInRange, raise_cfg, raise_mem] using hmem

theorem sendOut (h : s.Inv) (v : Word) : (s.send (.out v)).Inv := by
  obtain ⟨hcfg, hpc, hsp, hmem, hfault, hrun⟩ := h
  exact ⟨hcfg, hpc, hsp, hmem, FaultIsFirstDiag.sendOut hfault v, hrun⟩

theorem halt (h : s.Inv) : (s.withRunState .halted).Inv := by
  obtain ⟨hcfg, hpc, hsp, hmem, hfault, -⟩ := h
  exact ⟨hcfg, hpc, hsp, hmem, hfault, nofun⟩

theorem withPc (h : s.Inv) {v : Nat} (hv : v ≤ s.cfg.n) : (s.withPc v).Inv := by
  obtain ⟨hcfg, -, hsp, hmem, hfault, hrun⟩ := h
  exact ⟨hcfg, hv, hsp, hmem, hfault, hrun⟩

theorem withSp (h : s.Inv) {v : Nat} (hlow : s.cfg.stackStart ≤ v) (hhigh : v ≤ s.cfg.n) :
    (s.withSp v).Inv := by
  obtain ⟨hcfg, hpc, -, hmem, hfault, hrun⟩ := h
  exact ⟨hcfg, hpc, ⟨hlow, hhigh⟩, hmem, hfault, hrun⟩

theorem withMem (h : s.Inv) {m : Memory} (hwf : m.wf = true)
    (hin : ∀ cell ∈ m, cell.1 < s.cfg.n) : (s.withMem m).Inv := by
  obtain ⟨hcfg, hpc, hsp, -, hfault, hrun⟩ := h
  exact ⟨hcfg, hpc, hsp, ⟨hwf, hin⟩, hfault, hrun⟩

theorem withInbox (h : s.Inv) (cs : List Command) : (s.withInbox cs).Inv := h

/-- A write inside memory. -/
theorem write (h : s.Inv) {i : Nat} (hi : i < s.cfg.n) (v : Word) :
    (s.withMem (s.mem.write i v)).Inv := by
  obtain ⟨-, -, -, ⟨hwf, hin⟩, -, -⟩ := id h
  refine h.withMem (Memory.wf_write hwf i v) fun cell hcell => ?_
  rcases Memory.mem_write hcell with haddress | hbefore
  · exact haddress ▸ hi
  · exact hin cell hbefore

theorem push (h : s.Inv) (hroom : s.sp < s.cfg.n) (v : Word) :
    ((s.withMem (s.mem.write s.sp v)).withSp (s.sp + 1)).Inv := by
  obtain ⟨-, -, ⟨hlow, -⟩, -, -, -⟩ := id h
  exact (h.write hroom v).withSp (Nat.le_succ_of_le hlow) hroom

theorem pop (h : s.Inv) (hdepth : s.cfg.stackStart < s.sp) : (s.withSp (s.sp - 1)).Inv := by
  obtain ⟨-, -, ⟨-, hhigh⟩, -, -, -⟩ := id h
  exact h.withSp (by omega) (by omega)

end State.Inv

theorem exec_inv {i : Instr} {s t : State} (hs : s.Inv) (h : exec i s = .next t) : t.Inv := by
  refine exec_induction (P := State.Inv) ?fault ?out ?pop ?push ?halt hs h
  case fault => exact fun k _ hu => hu.raise k
  case out => exact fun v _ _ hu => hu.sendOut v
  case pop => exact fun _ hu hdepth _ => hu.pop hdepth
  case push => exact fun v _ hu _ hroom => hu.push hroom v
  case halt => exact fun _ hs => hs.halt

theorem runStep_inv {s t : State} (hs : s.Inv) (h : runStep s = .next t) : t.Inv := by
  rcases runStep_cases h with ⟨hpc, hexecute⟩ | ⟨-, rfl⟩
  · obtain ⟨i, hexec⟩ := exists_exec_of_execute hexecute
    exact exec_inv (hs.withPc hpc) hexec
  · exact hs.raise _

/-! ### Each command -/

/-- LOAD of a core that is not Running answers, and writes words of the code region alone. -/
theorem loadProgram_spec {s : State} (hc : s.cfg.sizesWf = true) (hr : s.runState ≠ .running)
    (words : List Word) :
    ∃ m, loadProgram words s = .next (s.withMem m) ∧
      (s.mem.wf = true → m.wf = true) ∧
      (∀ cell ∈ m, cell.1 < s.cfg.n ∨ cell ∈ s.mem) ∧
      ∀ j, s.cfg.codeSize ≤ j → m.read? j = s.mem.read? j := by
  have hfits := length_take_codeSize_le hc words
  obtain ⟨m, hm, hwf, hin, hkept, -⟩ := writeFrom_spec (words.take s.cfg.codeSize) 0 s (by omega)
  refine ⟨m, (loadProgram_of_not_running hr words).trans hm, hwf,
    fun cell hcell => (hin cell hcell).imp_left fun ⟨_, hlt⟩ => by omega,
    fun j hj => hkept j (.inr ?beyond)⟩
  have := List.length_take_le s.cfg.codeSize words
  omega

/-- RUN leaves SP in its range under both policies. -/
theorem resetForRun_spInRange {s : State} (hc : s.cfg.sizesWf = true) (hsp : SpInRange s) :
    SpInRange (resetForRun s) := by
  obtain ⟨-, hstart, -⟩ := stackStart_facts hc
  simp only [SpInRange, resetForRun_cfg, resetForRun_sp]
  cases s.cfg.restartPolicy with
  | fullReset => exact ⟨le_rfl, hstart.le⟩
  | carryOver => exact hsp

theorem startRun_inv {s t : State} (hs : s.Inv) (h : startRun s = .next t) : t.Inv := by
  obtain ⟨-, rfl⟩ := startRun_cases h
  obtain ⟨hcfg, -, hsp, hmem, -, -⟩ := id hs
  refine ⟨(resetForRun_cfg s).symm ▸ hcfg, ?pc, resetForRun_spInRange hs.sizesWf hsp, ?mem,
    FaultIsFirstDiag.startOfRun s, fun _ => resetForRun_fault s⟩
  case pc => simp [PcInRange]
  case mem => simpa [MemInRange] using hmem

theorem command_inv {c : Command} {s t : State} (hs : s.Inv) (h : command c s = .next t) :
    t.Inv := by
  cases c with
  | load words =>
    obtain ⟨hr, -⟩ := loadProgram_cases h
    obtain ⟨m, hm, hwf, hin, -⟩ := loadProgram_spec hs.sizesWf hr words
    obtain rfl : s.withMem m = t := Host.Outcome.next.inj (hm.symm.trans h)
    obtain ⟨-, -, -, ⟨hwf', hin'⟩, -, -⟩ := id hs
    exact hs.withMem (hwf hwf') fun cell hcell => (hin cell hcell).elim id (hin' cell)
  | run => exact startRun_inv hs h
  | dump =>
    obtain rfl := Host.Outcome.next.inj h
    exact hs

theorem waitStep_inv {s t : State} (hs : s.Inv) (h : waitStep s = .next t) : t.Inv := by
  rcases waitStep_cases h with ⟨-, rfl⟩ | ⟨c, rest, -, hcommand⟩
  · exact hs
  · exact command_inv (hs.withInbox rest) hcommand

/-- Settles O48: a step is a step of a run or a waiting step. -/
theorem stepKeepsTheInvariant : Obligations.StepKeepsTheInvariant := by
  intro s t hs h
  by_cases hr : s.runState = .running
  · exact runStep_inv hs (step_of_running hr ▸ h)
  · exact waitStep_inv hs (step_of_not_running hr ▸ h)

/-- Settles O50: FAULT is the code of an event, or 0. -/
theorem faultHoldsALegalCode : Obligations.FaultHoldsALegalCode := by
  rintro s ⟨-, -, -, -, ⟨-, hfault⟩, -⟩
  exact hfault ▸ firstFaultCode_le s.runEvents

/-! ### Construction -/

theorem construct_of_wf {n stackSize dataStart : Option Nat} {model : Config}
    (h : (configOf n stackSize dataStart model).wf = true) :
    construct n stackSize dataStart model =
      .next (State.init (configOf n stackSize dataStart model)) :=
  if_pos h

theorem construct_of_not_wf {n stackSize dataStart : Option Nat} {model : Config}
    (h : ¬(configOf n stackSize dataStart model).wf = true) :
    construct n stackSize dataStart model = .refused .illFormedConfig :=
  if_neg h

theorem init_inv {c : Config} (h : c.wf = true) : (State.init c).Inv := by
  obtain ⟨-, hstart, -⟩ := stackStart_facts (sizesWf_of_wf h)
  exact ⟨h, Nat.zero_le _, ⟨le_rfl, hstart.le⟩, ⟨rfl, nofun⟩, ⟨le_rfl, rfl⟩, nofun⟩

/-- Settles O47: what CONSTRUCT answers is a fresh core of a well-formed configuration. -/
theorem everyConstructedCoreMeetsTheInvariant :
    Obligations.EveryConstructedCoreMeetsTheInvariant := by
  intro n stackSize dataStart model s h
  by_cases hwf : (configOf n stackSize dataStart model).wf = true
  · obtain rfl := Host.Outcome.next.inj ((construct_of_wf hwf).symm.trans h)
    exact init_inv hwf
  · exact nomatch (construct_of_not_wf hwf).symm.trans h

theorem defaultConfig_wf : defaultConfig.wf = true := by decide

/-- Settles O46: the sizes left out take the values of the default configuration. -/
theorem resetMeetsTheInvariant : Obligations.ResetMeetsTheInvariant :=
  ⟨construct_of_wf (model := defaultConfig) defaultConfig_wf, init_inv defaultConfig_wf⟩

/-- With a legal OPCODE_MAP the sizes alone decide. -/
theorem configOf_wf_iff {n stackSize dataStart : Option Nat} {model : Config}
    (hm : model.opcodeMap.wf = true) :
    (configOf n stackSize dataStart model).wf = true ↔
      1 ≤ n.getD 1024 ∧ n.getD 1024 ≤ 2 ^ 32 - 1 ∧ 1 ≤ stackSize.getD 256 ∧
        stackSize.getD 256 ≤ n.getD 1024 ∧
        dataStart.getD 512 ≤ n.getD 1024 - stackSize.getD 256 := by
  simp only [Config.wf, Bool.and_eq_true, sizesWf_iff]
  exact and_iff_left hm

/-- Settles O45: the two answers of CONSTRUCT, and the fields of a fresh core. -/
theorem constructMakesAFreshCore : Obligations.ConstructMakesAFreshCore := by
  intro n stackSize dataStart model hm size stack data
  refine ⟨fun hsizes => ⟨_, construct_of_wf ((configOf_wf_iff hm).mpr hsizes), ?fields⟩,
    fun hsizes => construct_of_not_wf (mt (configOf_wf_iff hm).mp hsizes)⟩
  exact ⟨rfl, rfl, rfl, rfl, rfl, rfl, rfl, rfl, fun _ => rfl, rfl, rfl⟩

end Sys2Proof.Machine
end

section
/-! SUPPORT. Frames (10_state.md R33, R38, R39; 20_memory.md sections 2 and 3): what no instruction
touches, how the flag and FAULT can change, and where a word is stored. -/

namespace Sys2Proof.Machine

/-! ### The registers and records that no instruction touches -/

/-- The fields of a state that no part of an instruction writes. -/
def State.untouched (s : State) : Config × Nat × Word × Word × Word × Nat × List Command :=
  (s.cfg, s.pc, s.a, s.b, s.c, s.runMark, s.inbox)

theorem untouched_raise (k : FaultKind) (s : State) : (raise k s).untouched = s.untouched := by
  simp [State.untouched]

theorem exec_untouched {i : Instr} {s t : State} (h : exec i s = .next t) :
    t.untouched = s.untouched := by
  refine exec_induction (P := fun u => u.untouched = s.untouched) ?fault ?out ?pop ?push ?halt rfl h
  case fault => exact fun k u hu => (untouched_raise k u).trans hu
  case out => exact fun _ _ _ hu => hu
  case pop => exact fun _ hu _ _ => hu
  case push => exact fun _ _ hu _ _ => hu
  case halt => exact fun _ hs => hs

theorem exec_keepsTheRest {i : Instr} {s t : State} (h : exec i s = .next t) :
    KeepsTheRest s t := by
  have hkept := exec_untouched h
  simp only [State.untouched, Prod.mk.injEq] at hkept
  obtain ⟨hcfg, hpc, ha, hb, hc, hmark, hinbox⟩ := hkept
  exact ⟨hcfg, hpc, ha, hb, hc, hmark, hinbox, (List.prefix_iff_eq_take.mp (exec_events h)).symm⟩

theorem exec_runMark {i : Instr} {s t : State} (h : exec i s = .next t) :
    t.runMark = s.runMark := by
  obtain ⟨-, -, -, -, -, hmark, -⟩ := exec_keepsTheRest h
  exact hmark

/-! ### The flag and FAULT -/

/-- A fault after anything that keeps a FAULT already set. -/
theorem flagsKeptOrFaulted_raise {s u : State} (k : FaultKind)
    (h : s.fault ≠ 0 → u.fault = s.fault) : FlagsKeptOrFaulted s (raise k u) := by
  refine .inr ⟨raise_runState k u, fun hs => ?kept, ?set⟩
  case kept =>
    have hu := h hs
    rw [raise_fault, if_neg (hu ▸ hs), hu]
  case set =>
    rw [raise_fault]
    split
    · exact FaultKind.code_ne_zero k
    · assumption

/-- The flag and FAULT change by a fault, or the flag alone by HALT. -/
theorem exec_flags {i : Instr} {s t : State} (h : exec i s = .next t) :
    FlagsKeptOrFaulted s t ∨
      ((∃ x, i = .halt x) ∧ t.runState = .halted ∧ t.fault = s.fault) := by
  refine exec_induction (P := fun u => FlagsKeptOrFaulted s u ∨
    ((∃ x, i = .halt x) ∧ u.runState = .halted ∧ u.fault = s.fault))
    ?fault ?out ?pop ?push ?halt (.inl (.inl ⟨rfl, rfl⟩)) h
  case fault =>
    rintro k u ((⟨-, hfault⟩ | ⟨-, hfault, -⟩) | ⟨-, -, hfault⟩)
    · exact .inl (flagsKeptOrFaulted_raise k fun _ => hfault)
    · exact .inl (flagsKeptOrFaulted_raise k hfault)
    · exact .inl (flagsKeptOrFaulted_raise k fun _ => hfault)
  case out => exact fun _ _ _ hu => hu
  case pop => exact fun _ hu _ _ => hu
  case push => exact fun _ _ hu _ _ => hu
  case halt => exact fun hhalt _ => .inr ⟨hhalt, rfl, rfl⟩

theorem exec_flags_of_ne_halt {i : Instr} {s t : State} (hi : i.name ≠ .halt)
    (h : exec i s = .next t) : FlagsKeptOrFaulted s t := by
  rcases exec_flags h with hflags | ⟨⟨x, rfl⟩, -⟩
  · exact hflags
  · exact absurd rfl hi

/-! ### Instructions that store nothing -/

/-- A pop with nothing after it that moves SP or writes memory. -/
theorem withPop_sp_mem {s t : State} {rest : Word → State → Result State}
    (hrest : ∀ v u, rest v u = .next t → t.sp = u.sp ∧ t.mem = u.mem)
    (h : withPop s rest = .next t) :
    (t.sp = s.sp ∨ (s.cfg.stackStart < s.sp ∧ t.sp = s.sp - 1)) ∧ t.mem = s.mem := by
  rcases withPop_cases h with ⟨hdepth, -, hgo⟩ | ⟨-, -, rfl⟩ | ⟨-, -, hgo⟩
  · obtain ⟨hsp, hmem⟩ := hrest _ _ hgo
    exact ⟨.inr ⟨hdepth, hsp⟩, hmem⟩
  · exact ⟨.inl (raise_sp _ s), raise_mem _ s⟩
  · obtain ⟨hsp, hmem⟩ := hrest _ _ hgo
    exact ⟨.inl (hsp.trans (raise_sp _ s)), hmem.trans (raise_mem _ s)⟩

/-- The names whose instructions do not push. -/
def OpName.storesNothing (n : OpName) : Prop := n ∉ [.push, .add, .sub, .mul, .div]

theorem exec_sp_mem_of_storesNothing {i : Instr} {s t : State} (hi : OpName.storesNothing i.name)
    (h : exec i s = .next t) :
    (t.sp = s.sp ∨ ((i.name = .pop ∨ i.name = .print) ∧ s.cfg.stackStart < s.sp ∧
      t.sp = s.sp - 1)) ∧ t.mem = s.mem := by
  cases i with
  | push | add | sub | mul | div => exact absurd (by simp [Instr.name]) hi
  | halt | nop =>
    obtain rfl := Host.Outcome.next.inj h
    exact ⟨.inl rfl, rfl⟩
  | pop x =>
    obtain ⟨hsp, hmem⟩ := withPop_sp_mem
      (fun v u hu => Host.Outcome.next.inj hu ▸ ⟨rfl, rfl⟩) (exec_pop x s ▸ h)
    exact ⟨hsp.imp_right fun hpop => ⟨.inl rfl, hpop⟩, hmem⟩
  | print x =>
    obtain ⟨hsp, hmem⟩ := withPop_sp_mem
      (fun v u hu => Host.Outcome.next.inj hu ▸ ⟨rfl, rfl⟩) (exec_print x s ▸ h)
    exact ⟨hsp.imp_right fun hpop => ⟨.inr rfl, hpop⟩, hmem⟩
  | load | store | mov | jmp | jz | jnz | call | ret | read =>
    obtain rfl := Host.Outcome.next.inj h
    exact ⟨.inl (raise_sp _ s), raise_mem _ s⟩

/-- Settles O21: the 13 instructions of the list are those that do not push. -/
theorem nonStoringInstructionsFrame : Obligations.NonStoringInstructionsFrame := by
  intro x s t i hi h
  have hstoresNothing : OpName.storesNothing i.name := by
    revert i
    simp [OpName.storesNothing, Instr.name]
  have hinstr : i = i.name.instr x := by
    revert i
    simp [Instr.name, OpName.instr]
  obtain ⟨hsp, hmem⟩ := exec_sp_mem_of_storesNothing hstoresNothing h
  refine ⟨exec_keepsTheRest h, ?flags, hsp.imp_right (And.imp_left ?names), wordAt_congr hmem⟩
  case flags =>
    refine (exec_flags h).imp_right (And.imp_left ?_)
    rintro ⟨y, rfl⟩
    exact hinstr
  case names => exact Or.imp (fun hn => by rw [hinstr, hn]; rfl) (fun hn => by rw [hinstr, hn]; rfl)

/-! ### Instructions that push -/

/-- A push as the last statement stores at SP or takes a fault. -/
theorem pushResult_frame {v : Word} {s t : State} (h : pushResult v s = .next t) :
    (t.sp = s.sp + 1 ∨ (t.sp = s.sp ∧ t.runState = .halted ∧
      ∀ address, t.wordAt address = s.wordAt address)) ∧
    ∀ address, address ≠ s.sp → t.wordAt address = s.wordAt address := by
  rcases pushResult_cases h with ⟨-, -, rfl⟩ | ⟨-, rfl⟩
  · refine ⟨.inl (State.withSp_sp _ _), fun address hne => ?_⟩
    rw [wordAt_withSp, wordAt_withMem_write, if_neg hne]
  · exact ⟨.inr ⟨raise_sp _ s, raise_runState _ s, wordAt_raise _ s⟩, fun _ _ => wordAt_raise _ s _⟩

/-- Settles O22: PUSH is its last statement alone. -/
theorem pushFrame : Obligations.PushFrame := by
  intro x s t h
  obtain ⟨hsp, hwords⟩ := pushResult_frame (v := immediate x) h
  exact ⟨exec_keepsTheRest h, exec_flags_of_ne_halt (by simp [Instr.name]) h, hsp, hwords⟩

theorem withPop_of_pop {s u : State} {v : Word} {status : Status}
    {rest : Word → State → Result State} (h : pop s = .next (v, status, u)) :
    withPop s rest =
      if status = .fail ∧ u.cfg.popFaultMode = .abort then .next u else rest v u := by
  simp only [withPop, h, andThen_next]

theorem pop_mem {s u : State} {v : Word} {status : Status} (h : pop s = .next (v, status, u)) :
    u.mem = s.mem := by
  rcases pop_cases h with ⟨-, -, -, -, rfl⟩ | ⟨-, -, -, rfl⟩
  · exact State.withSp_mem s _
  · exact raise_mem _ s

/-- After a failed pop the stack is still empty, so that another pop leaves SP where it is. -/
theorem pop_sp_of_fail {s s1 s2 : State} {b a : Word} {status : Status}
    (h1 : pop s = .next (b, .fail, s1)) (h2 : pop s1 = .next (a, status, s2)) : s2.sp = s1.sp := by
  have hempty : s1.sp ≤ s1.cfg.stackStart := by
    rcases pop_cases h1 with ⟨-, -, -, hok, -⟩ | ⟨hempty, -, -, rfl⟩
    · exact nomatch hok
    · simpa using hempty
  rcases pop_cases h2 with ⟨hdepth, -⟩ | ⟨-, -, -, rfl⟩
  · exact absurd hempty (Nat.not_le.mpr hdepth)
  · exact raise_sp _ s1

/-- Two pops in an instruction end it with SP where they leave it, or the rest goes on from there.
-/
theorem withTwoPops_of_pops {s s1 s2 t : State} {b a : Word} {status1 status2 : Status}
    {rest : Word → Word → State → Result State} (h : withTwoPops s rest = .next t)
    (h1 : pop s = .next (b, status1, s1)) (h2 : pop s1 = .next (a, status2, s2)) :
    (t.sp = s2.sp ∧ t.mem = s2.mem) ∨ rest a b s2 = .next t := by
  rw [withTwoPops, withPop_of_pop h1] at h
  split at h
  case isTrue habort =>
    obtain ⟨rfl, -⟩ := habort
    obtain rfl := Host.Outcome.next.inj h
    exact .inl ⟨(pop_sp_of_fail h1 h2).symm, (pop_mem h2).symm⟩
  case isFalse =>
    rw [withPop_of_pop h2] at h
    split at h
    case isTrue => exact .inl (Host.Outcome.next.inj h ▸ ⟨rfl, rfl⟩)
    case isFalse => exact .inr h

/-- Settles O23: what comes after the two pops pushes, or takes a fault. -/
theorem arithmeticFrame : Obligations.ArithmeticFrame := by
  intro x s t i hi h
  have hname : i.name ≠ .halt := by
    revert i
    simp [Instr.name]
  refine ⟨exec_keepsTheRest h, exec_flags_of_ne_halt hname h, fun b a _ _ s1 s2 h1 h2 => ?_⟩
  have hkept : s2.mem = s.mem := (pop_mem h2).trans (pop_mem h1)
  obtain ⟨rest, hexec, hrest⟩ := exec_arithmetic hi
  rcases withTwoPops_of_pops (hexec s ▸ h) h1 h2 with ⟨hsp, hmem⟩ | hgo
  · exact ⟨.inl hsp, fun _ _ => wordAt_congr (hmem.trans hkept) _⟩
  · rcases hrest a b with ⟨v, hpush⟩ | hfault
    · obtain ⟨hsp, hwords⟩ := pushResult_frame (hpush ▸ hgo)
      exact ⟨hsp.symm.imp_left And.left,
        fun address hne => (hwords address hne).trans (wordAt_congr hkept address)⟩
    · obtain rfl := Host.Outcome.next.inj ((congrFun hfault s2).symm.trans hgo)
      exact ⟨.inl (raise_sp _ s2), fun _ _ => wordAt_congr ((raise_mem _ s2).trans hkept) _⟩

end Sys2Proof.Machine
end

section
/-! SUPPORT. Progress (30_encoding.md R98): from a state that meets the invariant no instruction,
command or step meets a missing address, and none is refused. -/

namespace Sys2Proof.Machine

/-- All that an instruction asks of a state in order to answer: the stack pointer within the stack
region of well-formed sizes. -/
structure StackReady (s : State) : Prop where
  sizesWf : s.cfg.sizesWf = true
  spInRange : SpInRange s

namespace StackReady

variable {s : State}

theorem of_inv (h : s.Inv) : StackReady s := by
  obtain ⟨hcfg, -, hsp, -, -, -⟩ := h
  exact ⟨sizesWf_of_wf hcfg, hsp⟩

theorem raise (h : StackReady s) (k : FaultKind) : StackReady (raise k s) where
  sizesWf := by simpa using h.sizesWf
  spInRange := by simpa only [SpInRange, raise_cfg, raise_sp] using h.spInRange

theorem pop (h : StackReady s) (hdepth : s.cfg.stackStart < s.sp) :
    StackReady (s.withSp (s.sp - 1)) where
  sizesWf := h.sizesWf
  spInRange := by
    obtain ⟨-, hhigh⟩ := h.spInRange
    exact ⟨Nat.le_sub_one_of_lt hdepth, (Nat.sub_le _ _).trans hhigh⟩

end StackReady

theorem pushResult_answers {s : State} (hs : StackReady s) (v : Word) :
    ∃ t, pushResult v s = .next t := by
  obtain ⟨-, hhigh⟩ := hs.spInRange
  rcases hhigh.lt_or_eq with hroom | hfull
  · exact ⟨_, pushResult_of_lt hs.sizesWf v hroom⟩
  · exact ⟨_, pushResult_of_full hs.sizesWf v hfull⟩

/-- A pop answers, and leaves what follows it a state in which that answers. -/
theorem withPop_answers {s : State} (hs : StackReady s) {rest : Word → State → Result State}
    (hrest : ∀ v u, StackReady u → ∃ t, rest v u = .next t) : ∃ t, withPop s rest = .next t := by
  by_cases hdepth : s.cfg.stackStart < s.sp
  · obtain ⟨-, hhigh⟩ := hs.spInRange
    rw [withPop_of_lt hdepth (by omega)]
    exact hrest _ _ (hs.pop hdepth)
  · have hempty : s.sp ≤ s.cfg.stackStart := Nat.not_lt.mp hdepth
    cases hmode : s.cfg.popFaultMode with
    | abort => exact ⟨_, withPop_of_le_abort hempty hmode⟩
    | continues =>
      rw [withPop_of_le_continues hempty hmode]
      exact hrest _ _ (hs.raise _)

theorem withTwoPops_answers {s : State} (hs : StackReady s)
    {rest : Word → Word → State → Result State}
    (hrest : ∀ a b u, StackReady u → ∃ t, rest a b u = .next t) :
    ∃ t, withTwoPops s rest = .next t :=
  withPop_answers hs fun b _ hu => withPop_answers hu fun a _ hv => hrest a b _ hv

theorem exec_arithmetic_answers {x : Operand} {i : Instr} {s : State}
    (hi : i ∈ [Instr.add x, .sub x, .mul x, .div x]) (hs : StackReady s) :
    ∃ t, exec i s = .next t := by
  obtain ⟨rest, hexec, hrest⟩ := exec_arithmetic hi
  rw [hexec]
  refine withTwoPops_answers hs fun a b u hu => ?_
  rcases hrest a b with ⟨v, hpush⟩ | hfault
  · exact hpush ▸ pushResult_answers hu v
  · exact ⟨_, congrFun hfault u⟩

theorem exec_answers (i : Instr) {s : State} (hs : StackReady s) : ∃ t, exec i s = .next t := by
  cases i with
  | push x => exact pushResult_answers hs (immediate x)
  | pop x => exact withPop_answers hs fun _ u _ => ⟨u, rfl⟩
  | print x => exact withPop_answers hs fun v u _ => ⟨emitOut v u, rfl⟩
  | add x | sub x | mul x | div x => exact exec_arithmetic_answers (x := x) (by simp) hs
  | halt | nop | load | store | mov | jmp | jz | jnz | call | ret | read => exact ⟨_, rfl⟩

/-- Every one of the 2^32 words has its effect. -/
theorem execute_answers (w : Word) {s : State} (hs : StackReady s) :
    ∃ t, execute w s = .next t := by
  cases hdecode : decode s.cfg.opcodeMap w with
  | instr i => exact execute_of_instr hdecode ▸ exec_answers i hs
  | undefinedOpcode v => exact ⟨_, execute_of_undefined hdecode⟩

theorem runStep_answers {s : State} (hs : StackReady s) : ∃ t, runStep s = .next t := by
  by_cases hpc : s.pc < s.cfg.n
  · rw [runStep_of_lt hpc]
    exact execute_answers _ (s := s.withPc (s.pc + 1)) ⟨hs.sizesWf, hs.spInRange⟩
  · exact ⟨_, runStep_of_le (Nat.not_lt.mp hpc)⟩

theorem command_answers (c : Command) {s : State} (hc : s.cfg.sizesWf = true)
    (hr : s.runState ≠ .running) : ∃ t, command c s = .next t := by
  cases c with
  | load words =>
    obtain ⟨m, hm, -⟩ := loadProgram_spec hc hr words
    exact ⟨_, hm⟩
  | run => exact ⟨_, startRun_of_not_running hr⟩
  | dump => exact ⟨s, rfl⟩

/-- Settles O49: a command is refused while Running alone, and a waiting core is not. -/
theorem stepNeverStopsUnderTheInvariant : Obligations.StepNeverStopsUnderTheInvariant := by
  intro s hs
  by_cases hr : s.runState = .running
  · rw [step_of_running hr]
    exact runStep_answers (.of_inv hs)
  · rw [step_of_not_running hr]
    cases hinbox : s.inbox with
    | nil => exact ⟨s, waitStep_of_nil hinbox⟩
    | cons c rest =>
      rw [waitStep_of_cons hinbox]
      exact command_answers c (s := s.withInbox rest) hs.sizesWf hr

end Sys2Proof.Machine
end

section
/-! SUPPORT. The loop (40_execution_loop.md R116 to R121): what every step of a run keeps, the whole
run keeps. -/

namespace Sys2Proof.Machine

theorem loop_succ {s : State} (hr : s.runState = .running) (fuel : Nat) :
    loop (fuel + 1) s = andThen (step s) (loop fuel) :=
  if_pos ((running_iff s).mpr hr)

/-- A property that every step of a Running core keeps holds at the end of a loop. -/
theorem loop_induction {P : State → Prop}
    (hstep : ∀ s t, s.runState = .running → P s → step s = .next t → P t) {fuel : Nat}
    {s t : State} (hs : P s) (h : loop fuel s = .next t) : P t := by
  induction fuel generalizing s with
  | zero => exact Host.Outcome.next.inj h ▸ hs
  | succ fuel ih =>
    by_cases hr : s.runState = .running
    · rw [loop_succ hr] at h
      obtain ⟨u, hu, h⟩ := andThen_eq_next.mp h
      exact ih (hstep s u hr hs hu) h
    · rw [loop_of_not_running hr] at h
      exact Host.Outcome.next.inj h ▸ hs

theorem loop_answers {s : State} (hs : s.Inv) (fuel : Nat) : ∃ t, loop fuel s = .next t := by
  induction fuel generalizing s with
  | zero => exact ⟨s, rfl⟩
  | succ fuel ih =>
    by_cases hr : s.runState = .running
    · obtain ⟨u, hu⟩ := stepNeverStopsUnderTheInvariant s hs
      rw [loop_succ hr, hu, andThen_next]
      exact ih (stepKeepsTheInvariant s u hs hu)
    · exact ⟨s, loop_of_not_running hr _⟩

/-- A step of a run that goes on moves PC to the next word, and one that does not halts the core. -/
theorem step_of_running_cases {s t : State} (hr : s.runState = .running) (h : step s = .next t) :
    (t.runState = .running ∧ t.pc = s.pc + 1) ∨ t.runState = .halted := by
  rw [step_of_running hr] at h
  rcases runStep_cases h with ⟨-, hexecute⟩ | ⟨-, rfl⟩
  · obtain ⟨i, hexec⟩ := exists_exec_of_execute hexecute
    obtain ⟨es, ht⟩ := exec_reachedBy hexec
    rcases ht.runState with hkept | ⟨hhalted, -⟩
    · exact .inl ⟨hkept.trans hr, ht.pc⟩
    · exact .inr hhalted
  · exact .inr (raise_runState _ s)

/-- While a loop goes on, its steps and the words it has fetched keep pace. -/
theorem loop_pc {fuel : Nat} {s t : State} (h : loop fuel s = .next t)
    (ht : t.runState = .running) : t.pc = s.pc + fuel := by
  induction fuel generalizing s with
  | zero => exact Host.Outcome.next.inj h ▸ rfl
  | succ fuel ih =>
    by_cases hr : s.runState = .running
    · rw [loop_succ hr] at h
      obtain ⟨u, hu, h⟩ := andThen_eq_next.mp h
      rcases step_of_running_cases hr hu with ⟨-, hpc⟩ | hhalted
      · rw [ih h, hpc]; omega
      · have hstopped : u.runState ≠ .running := by simp [hhalted]
        rw [loop_of_not_running hstopped] at h
        exact absurd ht (Host.Outcome.next.inj h ▸ hstopped)
    · rw [loop_of_not_running hr] at h
      exact absurd ht (Host.Outcome.next.inj h ▸ hr)

/-- Settles O34: a run starts at address 0. -/
theorem stepNumberIsTheAddressFetched : Obligations.StepNumberIsTheAddressFetched := by
  intro s s1 t k hstart hloop ht
  obtain ⟨-, rfl⟩ := startRun_cases hstart
  simpa using loop_pc hloop ht

/-- A run of N + 1 steps that still went on would have PC beyond N. -/
theorem loop_halts {s t : State} (hs : s.Inv) (hr : s.runState = .running)
    (h : loop (s.cfg.n + 1) s = .next t) : t.runState = .halted := by
  have hkept : (t.Inv ∧ t.cfg = s.cfg) ∧ (t.runState = .running ∨ t.runState = .halted) := by
    refine loop_induction (P := fun u =>
      (u.Inv ∧ u.cfg = s.cfg) ∧ (u.runState = .running ∨ u.runState = .halted)) ?step
      ⟨⟨hs, rfl⟩, .inl hr⟩ h
    rintro u v hu ⟨⟨hinv, hcfg⟩, -⟩ huv
    exact ⟨⟨stepKeepsTheInvariant u v hinv huv, (step_cfg huv).trans hcfg⟩,
      (step_of_running_cases hu huv).imp_left And.left⟩
  obtain ⟨⟨⟨-, hpc, -⟩, hcfg⟩, hrunning | hhalted⟩ := hkept
  · have hbeyond : t.pc = s.pc + (s.cfg.n + 1) := loop_pc h hrunning
    have hinside : t.pc ≤ s.cfg.n := hcfg ▸ hpc
    omega
  · exact hhalted

/-- Settles O35: the run answers by progress, and has halted because PC cannot pass N. -/
theorem everyRunHaltsWithinNPlusOneSteps : Obligations.EveryRunHaltsWithinNPlusOneSteps := by
  intro s hs hr
  have hstart := startRun_of_not_running hr
  have hinv := startRun_inv hs hstart
  obtain ⟨t, hloop⟩ := loop_answers hinv (s.cfg.n + 1)
  have hcfg : ((resetForRun s).withRunState .running).cfg = s.cfg := resetForRun_cfg s
  refine ⟨_, t, s.cfg.n + 1, hstart, le_rfl, hloop,
    loop_halts hinv (State.withRunState_runState _ _) (hcfg.symm ▸ hloop), ?returns⟩
  rw [runProgram, hstart, andThen_next, hcfg, hloop, andThen_next]

/-! ### What RUN returns -/

/-- What every step of a run that began after the events `before` keeps. -/
structure InRunAfter (before : List Event) (s : State) : Prop where
  runMark : s.runMark = before.length
  events : before <+: s.events
  fault : FaultIsFirstDiag s

theorem InRunAfter.step {before : List Event} {s t : State} (hs : InRunAfter before s)
    (hr : s.runState = .running) (h : step s = .next t) : InRunAfter before t := by
  have hevents : before <+: t.events := hs.events.trans (step_events h)
  rw [step_of_running hr] at h
  rcases runStep_cases h with ⟨-, hexecute⟩ | ⟨-, rfl⟩
  · obtain ⟨i, hexec⟩ := exists_exec_of_execute hexecute
    have hmark : t.runMark = (s.withPc (s.pc + 1)).runMark := exec_runMark hexec
    exact ⟨hmark.trans hs.runMark, hevents,
      exec_faultIsFirstDiag (s := s.withPc (s.pc + 1)) hs.fault hexec⟩
  · exact ⟨(raise_runMark _ s).trans hs.runMark, hevents, FaultIsFirstDiag.raise hs.fault _⟩

/-- Settles O36: `runMark` is the number of events before the run, and FAULT the first DIAG event
after them. -/
theorem runReturnsItsFirstFault : Obligations.RunReturnsItsFirstFault := by
  intro s t code h
  obtain ⟨s1, hstart, h⟩ := andThen_eq_next.mp h
  obtain ⟨u, hloop, h⟩ := andThen_eq_next.mp h
  obtain ⟨rfl, rfl⟩ := Prod.mk.inj (Host.Outcome.next.inj h)
  obtain ⟨-, rfl⟩ := startRun_cases hstart
  have hbegin : InRunAfter s.events ((resetForRun s).withRunState .running) :=
    ⟨resetForRun_runMark s, by simp, FaultIsFirstDiag.startOfRun s⟩
  obtain ⟨hmark, hevents, -, hfault⟩ :=
    loop_induction (fun _ _ hr hu huv => InRunAfter.step hu hr huv) hbegin hloop
  refine ⟨?code, (List.prefix_iff_eq_take.mp hevents).symm⟩
  rw [hfault, State.runEvents, hmark]

end Sys2Proof.Machine
end

section
/-! SUPPORT. What an instruction does not look at (10_state.md R33; 30_encoding.md section 3): a
change made there before the instruction is the same change made after it. -/

namespace Sys2Proof.Machine

/-- `f` changes nothing that the parts of an instruction look at, and touches nothing that they
write. (A pop looks at POP_FAULT_MODE besides.) -/
structure Transparent (f : State → State) : Prop where
  n : ∀ s, (f s).cfg.n = s.cfg.n
  stackSize : ∀ s, (f s).cfg.stackSize = s.cfg.stackSize
  sp : ∀ s, (f s).sp = s.sp
  fault : ∀ s, (f s).fault = s.fault
  mem : ∀ s, (f s).mem = s.mem
  withSp : ∀ s v, (f s).withSp v = f (s.withSp v)
  withMem : ∀ s m, (f s).withMem m = f (s.withMem m)
  withFault : ∀ s v, (f s).withFault v = f (s.withFault v)
  withRunState : ∀ s r, (f s).withRunState r = f (s.withRunState r)
  send : ∀ s e, (f s).send e = f (s.send e)

/-- Operation `g` does after the change `f` what it does before it. -/
def Commutes (f : State → State) (g : State → Result State) : Prop :=
  ∀ s, g (f s) = mapNext f (g s)

theorem transparent_withScratch (x y z : Word) :
    Transparent fun s => s.withScratch x y z := by
  constructor <;> intros <;> rfl

theorem transparent_withOpcodeMap (m : OpcodeMap) : Transparent fun s => s.withOpcodeMap m := by
  constructor <;> intros <;> rfl

theorem transparent_withPopFaultMode (p : PopFaultMode) :
    Transparent fun s => s.withPopFaultMode p := by
  constructor <;> intros <;> rfl

/-- A pop from an address at or above N, which does not exist (20_memory.md R64). -/
theorem withPop_of_missing {s : State} {rest : Word → State → Result State}
    (hdepth : s.cfg.stackStart < s.sp) (hin : ¬s.sp - 1 < s.cfg.n) :
    withPop s rest = .fault (.noSuchWord (s.sp - 1)) := by
  simp [withPop, pop, memRead, hdepth, hin]

section
variable {f : State → State}

/-- Two operations in a row. -/
theorem Commutes.andThen {g h : State → Result State} (hg : Commutes f g) (hh : Commutes f h) :
    Commutes f fun s => andThen (g s) h := by
  intro s
  show Machine.andThen (g (f s)) h = _
  rw [hg s]
  cases hs : g s with
  | next u => simpa only [hs, mapNext, andThen_next] using hh u
  | fault r => simp only [hs, mapNext, andThen_fault]
  | refused r => simp only [hs, mapNext, andThen_refused]

variable (hf : Transparent f)
include hf

namespace Transparent

theorem stackStart (s : State) : (f s).cfg.stackStart = s.cfg.stackStart := by
  simp only [Config.stackStart, hf.n, hf.stackSize]

theorem wordAt (s : State) (i : Nat) : (f s).wordAt i = s.wordAt i := wordAt_congr (hf.mem s) i

theorem raise (k : FaultKind) (s : State) : raise k (f s) = f (raise k s) := by
  by_cases hs : s.fault = 0#3
  · simp [Machine.raise, recordFault, hf.send, hf.fault, hf.withFault, hf.withRunState, hs]
  · simp [Machine.raise, recordFault, hf.send, hf.fault, hf.withRunState, hs]

theorem memWrite (i : Nat) (v : Word) : Commutes f (memWrite i v) := by
  intro s
  unfold Machine.memWrite
  rw [hf.n, hf.mem, hf.withMem, apply_ite (mapNext f)]
  rfl

theorem pushResult (v : Word) : Commutes f (pushResult v) := by
  intro s
  unfold Machine.pushResult push
  rw [hf.stackStart, hf.stackSize, hf.sp, hf.memWrite, hf.raise]
  split
  · cases Machine.memWrite s.sp v s with
    | next u => exact congrArg Host.Outcome.next (hf.withSp u _)
    | fault r => rfl
    | refused r => rfl
  · rfl

/-- A pop, where the change leaves POP_FAULT_MODE as well. -/
theorem withPop (hmode : ∀ s, (f s).cfg.popFaultMode = s.cfg.popFaultMode)
    {rest : Word → State → Result State} (hrest : ∀ v, Commutes f (rest v)) :
    Commutes f fun s => withPop s rest := by
  intro s
  by_cases hdepth : s.cfg.stackStart < s.sp
  · have hdepth' : (f s).cfg.stackStart < (f s).sp := by rwa [hf.stackStart, hf.sp]
    by_cases hin : s.sp - 1 < s.cfg.n
    · have hin' : (f s).sp - 1 < (f s).cfg.n := by rwa [hf.n, hf.sp]
      simp only [withPop_of_lt hdepth hin, withPop_of_lt hdepth' hin', hf.wordAt, hf.sp, hf.withSp]
      exact hrest _ _
    · have hin' : ¬(f s).sp - 1 < (f s).cfg.n := by rwa [hf.n, hf.sp]
      simp only [withPop_of_missing hdepth hin, withPop_of_missing hdepth' hin', hf.sp, mapNext]
  · have hempty : s.sp ≤ s.cfg.stackStart := Nat.not_lt.mp hdepth
    have hempty' : (f s).sp ≤ (f s).cfg.stackStart := by rwa [hf.stackStart, hf.sp]
    cases hm : s.cfg.popFaultMode with
    | abort =>
      have hm' : (f s).cfg.popFaultMode = .abort := (hmode s).trans hm
      simp only [withPop_of_le_abort hempty hm, withPop_of_le_abort hempty' hm', hf.raise]
      rfl
    | continues =>
      have hm' : (f s).cfg.popFaultMode = .continues := (hmode s).trans hm
      simp only [withPop_of_le_continues hempty hm, withPop_of_le_continues hempty' hm', hf.raise]
      exact hrest _ _

theorem withTwoPops (hmode : ∀ s, (f s).cfg.popFaultMode = s.cfg.popFaultMode)
    {rest : Word → Word → State → Result State} (hrest : ∀ a b, Commutes f (rest a b)) :
    Commutes f fun s => withTwoPops s rest :=
  hf.withPop hmode fun b => hf.withPop hmode fun a => hrest a b

/-- After the two pops of an arithmetic instruction, its word is pushed or it takes a fault. -/
theorem afterTwoPops {g : State → Result State} (hg : PushesOrDividesByZero g) :
    Commutes f g := by
  rcases hg with ⟨v, rfl⟩ | rfl
  · exact hf.pushResult v
  · exact fun s => congrArg Host.Outcome.next (hf.raise _ s)

/-- An instruction that pops nothing. -/
theorem exec_of_popless {i : Instr}
    (hi : i.name ∉ [OpName.pop, .print, .add, .sub, .mul, .div]) : Commutes f (exec i) := by
  intro s
  cases i with
  | pop | print | add | sub | mul | div => exact absurd (by simp [Instr.name]) hi
  | push x => exact hf.pushResult (immediate x) s
  | halt => exact congrArg Host.Outcome.next (hf.withRunState s _)
  | nop => rfl
  | load | store | mov | jmp | jz | jnz | call | ret | read =>
    exact congrArg Host.Outcome.next (hf.raise _ s)

theorem exec (hmode : ∀ s, (f s).cfg.popFaultMode = s.cfg.popFaultMode) (i : Instr) :
    Commutes f (exec i) := by
  have harithmetic {x : Operand} {i : Instr} (hi : i ∈ [Instr.add x, .sub x, .mul x, .div x]) :
      Commutes f (Machine.exec i) := by
    obtain ⟨rest, hexec, hrest⟩ := exec_arithmetic hi
    rw [funext hexec]
    exact hf.withTwoPops hmode fun a b => hf.afterTwoPops (hrest a b)
  cases i with
  | pop x =>
    rw [funext (exec_pop x)]
    exact hf.withPop hmode fun _ _ => rfl
  | print x =>
    rw [funext (exec_print x)]
    exact hf.withPop hmode fun v s => congrArg Host.Outcome.next (hf.send s (.out v))
  | add x | sub x | mul x | div x => exact harithmetic (x := x) (by simp)
  | _ => exact hf.exec_of_popless (by simp [Instr.name])

end Transparent

end

/-- Settles O25: A, B and C are changed by `withScratch` and by nothing in an instruction. -/
theorem instructionsIgnoreTheScratchRegisters :
    Obligations.InstructionsIgnoreTheScratchRegisters :=
  fun i s x y z => (transparent_withScratch x y z).exec (fun _ => rfl) i s

/-! ### Another OPCODE_MAP -/

/-- Which implemented name has a value depends on the values of the implemented names alone. -/
theorem classify_congr {m m' : OpcodeMap} (h : ∀ n ∈ OpName.implemented, m'.code n = m.code n)
    (v : Opcode) : classify m' v = classify m v := by
  unfold classify
  exact List.find?_congr fun n hn => by rw [h n hn]

section
variable {m : OpcodeMap}

theorem execute_withOpcodeMap {s : State}
    (h : ∀ n ∈ OpName.implemented, m.code n = s.cfg.opcodeMap.code n) (w : Word) :
    execute w (s.withOpcodeMap m) = mapNext (fun t => t.withOpcodeMap m) (execute w s) := by
  have hclass : classify (s.withOpcodeMap m).cfg.opcodeMap (opcodeField w) =
      classify s.cfg.opcodeMap (opcodeField w) := classify_congr h _
  have hf := transparent_withOpcodeMap m
  cases hname : classify s.cfg.opcodeMap (opcodeField w) with
  | some n =>
    rw [execute_of_classify_some hname, execute_of_classify_some (hclass.trans hname)]
    exact hf.exec (fun _ => rfl) _ s
  | none =>
    rw [execute_of_classify_none hname, execute_of_classify_none (hclass.trans hname)]
    exact congrArg Host.Outcome.next (hf.raise _ s)

theorem runStep_withOpcodeMap {s : State}
    (h : ∀ n ∈ OpName.implemented, m.code n = s.cfg.opcodeMap.code n) :
    runStep (s.withOpcodeMap m) = mapNext (fun t => t.withOpcodeMap m) (runStep s) := by
  by_cases hpc : s.pc < s.cfg.n
  · rw [runStep_of_lt hpc, runStep_of_lt (s := s.withOpcodeMap m) hpc]
    exact execute_withOpcodeMap (s := s.withPc (s.pc + 1)) h _
  · have hpast : s.cfg.n ≤ s.pc := Nat.not_lt.mp hpc
    rw [runStep_of_le hpast, runStep_of_le (s := s.withOpcodeMap m) hpast]
    exact congrArg Host.Outcome.next ((transparent_withOpcodeMap m).raise _ s)

theorem writeFrom_withOpcodeMap (ws : List Word) (i : Nat) :
    Commutes (fun s => s.withOpcodeMap m) (writeFrom i ws) := by
  induction ws generalizing i with
  | nil => exact fun _ => rfl
  | cons w ws ih => exact ((transparent_withOpcodeMap m).memWrite i w).andThen (ih (i + 1))

/-- No command reads the map, and of the configuration RUN reads RESTART_POLICY and STACK_START. -/
theorem command_withOpcodeMap (c : Command) :
    Commutes (fun s => s.withOpcodeMap m) (command c) := by
  intro s
  cases c with
  | load words =>
    by_cases hr : s.runState = .running
    · simp only [command, loadProgram_of_running hr,
        loadProgram_of_running (s := s.withOpcodeMap m) hr, mapNext]
    · simp only [command, loadProgram_of_not_running hr,
        loadProgram_of_not_running (s := s.withOpcodeMap m) hr]
      exact writeFrom_withOpcodeMap _ 0 s
  | run =>
    by_cases hr : s.runState = .running
    · simp only [command, startRun_of_running hr,
        startRun_of_running (s := s.withOpcodeMap m) hr, mapNext]
    · have hreset : resetForRun (s.withOpcodeMap m) = (resetForRun s).withOpcodeMap m := by
        have hpolicy : (s.withOpcodeMap m).cfg.restartPolicy = s.cfg.restartPolicy := rfl
        simp only [resetForRun, hpolicy]
        cases s.cfg.restartPolicy <;> rfl
      simp only [command, startRun_of_not_running hr,
        startRun_of_not_running (s := s.withOpcodeMap m) hr, hreset]
      rfl
  | dump => rfl

theorem waitStep_withOpcodeMap : Commutes (fun s => s.withOpcodeMap m) waitStep := by
  intro s
  cases hinbox : s.inbox with
  | nil =>
    rw [waitStep_of_nil hinbox, waitStep_of_nil (s := s.withOpcodeMap m) hinbox]
    rfl
  | cons c rest =>
    rw [waitStep_of_cons hinbox, waitStep_of_cons (s := s.withOpcodeMap m) hinbox]
    exact command_withOpcodeMap c (s.withInbox rest)

end

/-- Settles O31: executing a word looks at the map through `classify` alone, and waiting not at all.
-/
theorem reservedOpcodeValuesDoNotMatter : Obligations.ReservedOpcodeValuesDoNotMatter := by
  intro s m h
  by_cases hr : s.runState = .running
  · rw [step_of_running hr, step_of_running (s := s.withOpcodeMap m) hr]
    exact runStep_withOpcodeMap h
  · rw [step_of_not_running hr, step_of_not_running (s := s.withOpcodeMap m) hr]
    exact waitStep_withOpcodeMap s

end Sys2Proof.Machine
end

section
/-! SUPPORT. The two values of POP_FAULT_MODE (40_execution_loop.md R114; 92_eei_decisions.md D8):
they part at the first failed pop, and what Continue then goes on to do keeps the flag clear and
FAULT as it is. -/

namespace Sys2Proof.Machine

/-- The two modes agree on what ends a run and on the whole state where the run goes on. -/
abbrev SameButForTheMode (t u : State) : Prop :=
  t.fault = u.fault ∧ t.runState = u.runState ∧
    (t.runState = .running → u = t.withPopFaultMode .continues)

/-- An operation whose answers under the two modes agree, and which changes neither FAULT nor the
run state once a fault has been taken. -/
structure ModeBlind (g : State → Result State) : Prop where
  agree : ∀ s t u : State, g (s.withPopFaultMode .abort) = .next t →
    g (s.withPopFaultMode .continues) = .next u → SameButForTheMode t u
  keepsAFault : ∀ s t : State, s.runState = .halted → s.fault ≠ 0 → g s = .next t →
    t.runState = .halted ∧ t.fault = s.fault

namespace ModeBlind

/-- An operation that does not look at the mode gives one answer, with either mode in it. -/
theorem agree_of_commutes {g : State → Result State}
    (hg : Commutes (fun s => s.withPopFaultMode .continues) g) (s t u : State)
    (ht : g (s.withPopFaultMode .abort) = .next t)
    (hu : g (s.withPopFaultMode .continues) = .next u) : SameButForTheMode t u := by
  have hanswer : g (s.withPopFaultMode .continues) = .next (t.withPopFaultMode .continues) := by
    have hcommutes := hg (s.withPopFaultMode .abort)
    rwa [ht] at hcommutes
  obtain rfl := Host.Outcome.next.inj (hanswer.symm.trans hu)
  exact ⟨rfl, rfl, fun _ => rfl⟩

theorem raise_keepsAFault (k : FaultKind) {s : State} (hfault : s.fault ≠ 0) :
    (raise k s).runState = .halted ∧ (raise k s).fault = s.fault :=
  ⟨raise_runState k s, (raise_fault k s).trans (if_neg hfault)⟩

/-- An update of a state that touches neither the flag nor FAULT nor the mode. -/
theorem next {h : State → State} (hmode : ∀ s, h (s.withPopFaultMode .continues) =
    (h s).withPopFaultMode .continues) (hrun : ∀ s, (h s).runState = s.runState)
    (hfault : ∀ s, (h s).fault = s.fault) : ModeBlind fun s => .next (h s) where
  agree := agree_of_commutes (g := fun s => .next (h s)) fun s =>
    congrArg Host.Outcome.next (hmode s)
  keepsAFault := by
    intro s t hs _ ht
    obtain rfl := Host.Outcome.next.inj ht
    exact ⟨(hrun s).trans hs, hfault s⟩

theorem afterTwoPops {g : State → Result State} (hg : PushesOrDividesByZero g) : ModeBlind g where
  agree := agree_of_commutes ((transparent_withPopFaultMode .continues).afterTwoPops hg)
  keepsAFault := by
    intro s t hs hfault h
    rcases hg with ⟨v, rfl⟩ | rfl
    · rcases pushResult_cases h with ⟨-, -, rfl⟩ | ⟨-, rfl⟩
      · exact ⟨hs, rfl⟩
      · exact raise_keepsAFault _ hfault
    · exact Host.Outcome.next.inj h ▸ raise_keepsAFault _ hfault

/-- A pop that succeeds does so under both modes. One that fails takes its fault under both, and
what Continue does after it is done in a state with a fault taken. -/
theorem withPop {rest : Word → State → Result State} (hrest : ∀ v, ModeBlind (rest v)) :
    ModeBlind fun s => withPop s rest where
  agree := by
    intro s t u ht hu
    rcases withPop_cases ht with ⟨hdepth, hin, ht⟩ | ⟨hempty, -, rfl⟩ | ⟨-, hmode, -⟩
    · rw [withPop_of_lt (s := s.withPopFaultMode .continues) hdepth hin] at hu
      exact (hrest _).agree (s.withSp (s.sp - 1)) t u ht hu
    · rw [withPop_of_le_continues (s := s.withPopFaultMode .continues) hempty rfl] at hu
      have hset : (raise .stackUnderflow (s.withPopFaultMode .continues)).fault ≠ 0 := by
        rw [raise_fault]
        split
        · exact FaultKind.code_ne_zero _
        · assumption
      obtain ⟨hhalted, hfault⟩ := (hrest 0).keepsAFault _ u (raise_runState _ _) hset hu
      refine ⟨?fault, hhalted.symm, nofun⟩
      rw [hfault, raise_fault, raise_fault]
      rfl
    · exact nomatch hmode
  keepsAFault := by
    intro s t hs hfault h
    rcases withPop_cases h with ⟨-, -, h⟩ | ⟨-, -, rfl⟩ | ⟨-, -, h⟩
    · exact (hrest _).keepsAFault (s.withSp (s.sp - 1)) t hs hfault h
    · exact raise_keepsAFault _ hfault
    · obtain ⟨hhalted, hkept⟩ := raise_keepsAFault .stackUnderflow hfault
      obtain ⟨htrun, htfault⟩ := (hrest 0).keepsAFault _ t hhalted (hkept ▸ hfault) h
      exact ⟨htrun, htfault.trans hkept⟩

end ModeBlind

theorem exec_arithmetic_modeBlind {x : Operand} {i : Instr}
    (hi : i ∈ [Instr.add x, .sub x, .mul x, .div x]) : ModeBlind (exec i) := by
  obtain ⟨rest, hexec, hrest⟩ := exec_arithmetic hi
  rw [funext hexec]
  exact ModeBlind.withPop fun b => ModeBlind.withPop fun a => ModeBlind.afterTwoPops (hrest a b)

/-- Settles O32: an instruction that pops is made of operations that do not see the mode, and one
that does not pop sees it nowhere. -/
theorem popFaultModesAgreeOnTheFault : Obligations.PopFaultModesAgreeOnTheFault := by
  intro i
  cases i with
  | pop x =>
    rw [funext (exec_pop x)]
    exact (ModeBlind.withPop fun _ =>
      ModeBlind.next (h := id) (fun _ => rfl) (fun _ => rfl) fun _ => rfl).agree
  | print x =>
    rw [funext (exec_print x)]
    exact (ModeBlind.withPop fun v =>
      ModeBlind.next (h := fun s => s.send (.out v)) (fun _ => rfl) (fun _ => rfl)
        fun _ => rfl).agree
  | add x | sub x | mul x | div x => exact (exec_arithmetic_modeBlind (x := x) (by simp)).agree
  | _ =>
    exact ModeBlind.agree_of_commutes
      ((transparent_withPopFaultMode .continues).exec_of_popless (by simp [Instr.name]))

end Sys2Proof.Machine
end

section
/-! SUPPORT. How many faults one step can take (60_exceptions.md R186, R187): one at each pop and
one at the end, where Abort stops at the first. -/

namespace Sys2Proof.Machine

/-- From `s` to `t` at most `k` faults are taken. -/
def FaultsAtMost (k : Nat) (s t : State) : Prop :=
  ∃ es, t.events = s.events ++ es ∧ (diagKinds es).length ≤ k

namespace FaultsAtMost

variable {s t : State} {k : Nat}

theorem of_events (h : t.events = s.events) (k : Nat) : FaultsAtMost k s t :=
  ⟨[], by rw [h, List.append_nil], Nat.zero_le k⟩

theorem mono {j : Nat} (h : FaultsAtMost j s t) (hjk : j ≤ k) : FaultsAtMost k s t := by
  obtain ⟨es, hevents, hlength⟩ := h
  exact ⟨es, hevents, hlength.trans hjk⟩

theorem raise (c : FaultKind) (s : State) : FaultsAtMost 1 s (raise c s) :=
  ⟨[.diag c], raise_events c s, le_rfl⟩

theorem trans {j : Nat} {u : State} (h1 : FaultsAtMost j s u) (h2 : FaultsAtMost k u t) :
    FaultsAtMost (j + k) s t := by
  obtain ⟨es1, hevents1, hlength1⟩ := h1
  obtain ⟨es2, hevents2, hlength2⟩ := h2
  refine ⟨es1 ++ es2, by rw [hevents2, hevents1, List.append_assoc], ?_⟩
  rw [diagKinds_append, List.length_append]
  exact Nat.add_le_add hlength1 hlength2

theorem length_diagKinds_drop (h : FaultsAtMost k s t) :
    (diagKinds (t.events.drop s.events.length)).length ≤ k := by
  obtain ⟨es, hevents, hlength⟩ := h
  rwa [hevents, List.drop_left]

end FaultsAtMost

/-- The faults after which an instruction still goes on, for each pop it makes. -/
def faultsPassedPerPop : PopFaultMode → Nat
  | .abort => 0
  | .continues => 1

/-- A pop adds a fault to those of what follows it where the mode lets the instruction go on. -/
theorem withPop_faultsAtMost {s t : State} {rest : Word → State → Result State} {k : Nat}
    (hk : 1 ≤ k) (hrest : ∀ v u, u.cfg = s.cfg → rest v u = .next t → FaultsAtMost k u t)
    (h : withPop s rest = .next t) :
    FaultsAtMost (faultsPassedPerPop s.cfg.popFaultMode + k) s t := by
  rcases withPop_cases h with ⟨-, -, hgo⟩ | ⟨-, -, rfl⟩ | ⟨-, hmode, hgo⟩
  · exact (hrest _ (s.withSp (s.sp - 1)) rfl hgo).mono (Nat.le_add_left k _)
  · exact (FaultsAtMost.raise _ s).mono (Nat.le_add_left_of_le hk)
  · rw [hmode]
    exact (FaultsAtMost.raise _ s).trans (hrest _ _ (raise_cfg _ s) hgo)

theorem afterTwoPops_faultsAtMost {g : State → Result State} (hg : PushesOrDividesByZero g)
    {s t : State} (h : g s = .next t) : FaultsAtMost 1 s t := by
  rcases hg with ⟨v, rfl⟩ | rfl
  · rcases pushResult_cases h with ⟨-, -, rfl⟩ | ⟨-, rfl⟩
    · exact .of_events rfl 1
    · exact .raise _ s
  · exact Host.Outcome.next.inj h ▸ .raise _ s

/-- The bound for every instruction: one fault, and those passed at two pops. -/
def faultBound (p : PopFaultMode) : Nat := faultsPassedPerPop p + (faultsPassedPerPop p + 1)

theorem exec_arithmetic_faultsAtMost {x : Operand} {i : Instr} {s t : State}
    (hi : i ∈ [Instr.add x, .sub x, .mul x, .div x]) (h : exec i s = .next t) :
    FaultsAtMost (faultBound s.cfg.popFaultMode) s t := by
  obtain ⟨rest, hexec, hrest⟩ := exec_arithmetic hi
  refine withPop_faultsAtMost (Nat.le_add_left 1 _) (fun b u hu hgo => ?_) (hexec s ▸ h)
  rw [← hu]
  exact withPop_faultsAtMost le_rfl
    (fun a v _ hgo => afterTwoPops_faultsAtMost (hrest a b) hgo) hgo

/-- A pop with nothing after it that takes a fault. -/
theorem withPop_faultsAtMost_of_no_more {s t : State} {rest : Word → State → Result State}
    (hrest : ∀ v u, rest v u = .next t → FaultsAtMost 0 u t) (h : withPop s rest = .next t) :
    FaultsAtMost (faultBound s.cfg.popFaultMode) s t :=
  (withPop_faultsAtMost le_rfl (fun v u _ hgo => (hrest v u hgo).mono (Nat.zero_le 1)) h).mono
    (Nat.le_add_left _ _)

theorem one_le_faultBound (p : PopFaultMode) : 1 ≤ faultBound p := Nat.le_add_left_of_le
  (Nat.le_add_left 1 _)

theorem exec_faultsAtMost {i : Instr} {s t : State} (h : exec i s = .next t) :
    FaultsAtMost (faultBound s.cfg.popFaultMode) s t := by
  cases i with
  | halt | nop =>
    obtain rfl := Host.Outcome.next.inj h
    exact .of_events rfl _
  | push x =>
    exact (afterTwoPops_faultsAtMost (.inl ⟨immediate x, rfl⟩) h).mono (one_le_faultBound _)
  | pop x =>
    refine withPop_faultsAtMost_of_no_more (fun v u hu => ?_) (exec_pop x s ▸ h)
    exact Host.Outcome.next.inj hu ▸ .of_events rfl 0
  | print x =>
    refine withPop_faultsAtMost_of_no_more (fun v u hu => ?_) (exec_print x s ▸ h)
    exact Host.Outcome.next.inj hu ▸ ⟨[.out v], rfl, le_rfl⟩
  | add x | sub x | mul x | div x => exact exec_arithmetic_faultsAtMost (x := x) (by simp) h
  | load | store | mov | jmp | jz | jnz | call | ret | read =>
    obtain rfl := Host.Outcome.next.inj h
    exact (FaultsAtMost.raise _ s).mono (one_le_faultBound _)

/-- A step of a run takes the faults of its instruction, or that of the fetch. -/
theorem runStep_faultsAtMost {s t : State} (h : runStep s = .next t) :
    FaultsAtMost (faultBound s.cfg.popFaultMode) s t := by
  rcases runStep_cases h with ⟨-, hexecute⟩ | ⟨-, rfl⟩
  · obtain ⟨i, hexec⟩ := exists_exec_of_execute hexecute
    exact exec_faultsAtMost (s := s.withPc (s.pc + 1)) hexec
  · exact (FaultsAtMost.raise _ s).mono (one_le_faultBound _)

/-- Settles O33: `faultBound` is 1 under Abort and 3 under Continue. -/
theorem faultsOfOneStepAreFew : Obligations.FaultsOfOneStepAreFew := by
  intro s t hr h
  rw [step_of_running hr] at h
  have hfew := (runStep_faultsAtMost h).length_diagKinds_drop
  cases hmode : s.cfg.popFaultMode with
  | abort =>
    have hone : (diagKinds (t.events.drop s.events.length)).length ≤ 1 := by rwa [hmode] at hfew
    exact ⟨fun _ => hone, hone.trans (by decide)⟩
  | continues => exact ⟨nofun, by rwa [hmode] at hfew⟩

end Sys2Proof.Machine
end

section
/-! SUPPORT. The regions of memory (20_memory.md sections 1 and 3): instructions store in the stack
region, LOAD in the code region. -/

namespace Sys2Proof.Machine

/-- `u` has come from `s` with SP in the stack region and every word below that region as it was. -/
structure KeepsBelowStack (s u : State) : Prop where
  cfg : u.cfg = s.cfg
  sp : s.cfg.stackStart ≤ u.sp
  words : ∀ a, a < s.cfg.stackStart → u.wordAt a = s.wordAt a

namespace KeepsBelowStack

variable {s u : State}

theorem raise (h : KeepsBelowStack s u) (k : FaultKind) : KeepsBelowStack s (raise k u) where
  cfg := (raise_cfg k u).trans h.cfg
  sp := (raise_sp k u).symm ▸ h.sp
  words := fun a ha => (wordAt_raise k u a).trans (h.words a ha)

theorem pop (h : KeepsBelowStack s u) (hdepth : u.cfg.stackStart < u.sp) :
    KeepsBelowStack s (u.withSp (u.sp - 1)) where
  cfg := h.cfg
  sp := Nat.le_sub_one_of_lt (h.cfg ▸ hdepth)
  words := h.words

theorem push (h : KeepsBelowStack s u) (v : Word) :
    KeepsBelowStack s ((u.withMem (u.mem.write u.sp v)).withSp (u.sp + 1)) where
  cfg := h.cfg
  sp := Nat.le_succ_of_le h.sp
  words := fun a ha => by
    have hne : a ≠ u.sp := (ha.trans_le h.sp).ne
    rw [wordAt_withSp, wordAt_withMem_write, if_neg hne, h.words a ha]

end KeepsBelowStack

theorem exec_keepsBelowStack {i : Instr} {s t : State} (hsp : s.cfg.stackStart ≤ s.sp)
    (h : exec i s = .next t) : KeepsBelowStack s t := by
  refine exec_induction (P := KeepsBelowStack s) ?fault ?out ?pop ?push ?halt
    ⟨rfl, hsp, fun _ _ => rfl⟩ h
  case fault => exact fun k _ hu => hu.raise k
  case out => exact fun _ _ _ hu => ⟨hu.cfg, hu.sp, hu.words⟩
  case pop => exact fun _ hu hdepth _ => hu.pop hdepth
  case push => exact fun v _ hu _ _ => hu.push v
  case halt => exact fun _ hs => ⟨hs.cfg, hs.sp, hs.words⟩

theorem runStep_wordAt {s t : State} (hsp : s.cfg.stackStart ≤ s.sp) (h : runStep s = .next t)
    {a : Nat} (ha : a < s.cfg.stackStart) : t.wordAt a = s.wordAt a := by
  rcases runStep_cases h with ⟨-, hexecute⟩ | ⟨-, rfl⟩
  · obtain ⟨i, hexec⟩ := exists_exec_of_execute hexecute
    exact (exec_keepsBelowStack (s := s.withPc (s.pc + 1)) hsp hexec).words a ha
  · exact wordAt_raise _ s a

/-- Of the commands LOAD alone writes memory. -/
theorem command_wordAt {c : Command} {s t : State} (hc : s.cfg.sizesWf = true)
    (h : command c s = .next t) {a : Nat} (ha : s.cfg.codeSize ≤ a) : t.wordAt a = s.wordAt a := by
  cases c with
  | load words =>
    obtain ⟨hr, -⟩ := loadProgram_cases h
    obtain ⟨m, hm, -, -, hkept⟩ := loadProgram_spec hc hr words
    obtain rfl : s.withMem m = t := Host.Outcome.next.inj (hm.symm.trans h)
    simp only [State.wordAt, State.withMem_mem, hkept a ha]
  | run =>
    obtain ⟨-, rfl⟩ := startRun_cases h
    exact wordAt_congr (resetForRun_mem s) a
  | dump => exact Host.Outcome.next.inj h ▸ rfl

theorem waitStep_wordAt {s t : State} (hc : s.cfg.sizesWf = true) (h : waitStep s = .next t)
    {a : Nat} (ha : s.cfg.codeSize ≤ a) : t.wordAt a = s.wordAt a := by
  rcases waitStep_cases h with ⟨-, rfl⟩ | ⟨c, rest, -, hcommand⟩
  · rfl
  · exact command_wordAt (s := s.withInbox rest) hc hcommand ha

/-- Settles O51: the data region lies above the code region and below the stack region. -/
theorem stepsWriteOnlyTheirOwnRegion : Obligations.StepsWriteOnlyTheirOwnRegion := by
  intro s t hs h
  have hready := StackReady.of_inv hs
  obtain ⟨hlow, -⟩ := hready.spInRange
  by_cases hr : s.runState = .running
  · rw [step_of_running hr] at h
    exact ⟨fun _ _ ha => runStep_wordAt hlow h ha, fun _ _ ha => runStep_wordAt hlow h ha⟩
  · rw [step_of_not_running hr] at h
    exact ⟨fun hrunning => absurd hrunning hr,
      fun _ ha _ => waitStep_wordAt hready.sizesWf h ha⟩

end Sys2Proof.Machine
end

section
/-! SUPPORT. The line of an OUT event (43_control_output.md R163): the digits that `decimalDigits`
gives are decimal digits, have the number as their value, and begin with no zero. -/

namespace Sys2Proof.Machine

theorem decimalDigits_of_lt {k : Nat} (fuel : Nat) (h : k < 10) :
    decimalDigits (fuel + 1) k = [k] :=
  if_pos h

theorem decimalDigits_of_ge {k : Nat} (fuel : Nat) (h : 10 ≤ k) :
    decimalDigits (fuel + 1) k = decimalDigits fuel (k / 10) ++ [k % 10] :=
  if_neg (Nat.not_lt.mpr h)

theorem lt_ten_of_mem_decimalDigits {fuel k d : Nat} (h : d ∈ decimalDigits fuel k) : d < 10 := by
  induction fuel generalizing k with
  | zero => exact nomatch h
  | succ fuel ih =>
    rcases Nat.lt_or_ge k 10 with hk | hk
    · rw [decimalDigits_of_lt fuel hk, List.mem_singleton] at h
      exact h ▸ hk
    · rw [decimalDigits_of_ge fuel hk, List.mem_append, List.mem_singleton] at h
      rcases h with hrest | rfl
      · exact ih hrest
      · exact Nat.mod_lt k (by decide)

/-- A number below 10^(fuel + 1) has its tenth below 10^fuel. -/
theorem div_ten_lt_pow {fuel k : Nat} (h : k < 10 ^ (fuel + 1)) : k / 10 < 10 ^ fuel := by
  rw [Nat.div_lt_iff_lt_mul (by decide), ← pow_succ]
  exact h

theorem foldl_decimalDigits {fuel k : Nat} (h : k < 10 ^ fuel) :
    (decimalDigits fuel k).foldl (fun acc d => 10 * acc + d) 0 = k := by
  induction fuel generalizing k with
  | zero => exact (Nat.lt_one_iff.mp h).symm
  | succ fuel ih =>
    rcases Nat.lt_or_ge k 10 with hk | hk
    · simp [decimalDigits_of_lt fuel hk]
    · simp only [decimalDigits_of_ge fuel hk, List.foldl_append, ih (div_ten_lt_pow h),
        List.foldl_cons, List.foldl_nil, Nat.div_add_mod]

theorem decimalDigits_of_pos {fuel k : Nat} (hpos : 0 < k) (h : k < 10 ^ fuel) :
    ∃ d rest, decimalDigits fuel k = d :: rest ∧ d ≠ 0 := by
  induction fuel generalizing k with
  | zero => exact absurd (Nat.lt_one_iff.mp h) hpos.ne'
  | succ fuel ih =>
    rcases Nat.lt_or_ge k 10 with hk | hk
    · exact ⟨k, [], decimalDigits_of_lt fuel hk, hpos.ne'⟩
    · obtain ⟨d, rest, hdigits, hd⟩ := ih (Nat.div_pos hk (by decide)) (div_ten_lt_pow h)
      exact ⟨d, rest ++ [k % 10], by rw [decimalDigits_of_ge fuel hk, hdigits]; rfl, hd⟩

/-- Settles O52: a word has at most the 10 digits that `outputLine` asks for. -/
theorem outputLineIsTheUnsignedDecimal : Obligations.OutputLineIsTheUnsignedDecimal := by
  intro v
  have hten : v.toNat < 10 ^ 10 := v.isLt.trans (by decide)
  refine ⟨decimalDigits 10 v.toNat, rfl, fun _ => lt_ten_of_mem_decimalDigits,
    foldl_decimalDigits hten, ?lead⟩
  rcases Nat.eq_zero_or_pos v.toNat with hzero | hpos
  · rw [hzero]
    exact .inl (decimalDigits_of_lt 9 (by decide))
  · exact .inr (decimalDigits_of_pos hpos hten)

end Sys2Proof.Machine
end
